-- ==== Sys2Proof/Word.lean ====
section
/-! DEFINITION. The word types of the machine (00_scope.md R4, R8; 43_trap.md R95). -/

namespace Sys2Proof

/-- A 16-bit word: a register, a memory word, an instruction word or a word address (R4, R8). -/
abbrev Word := BitVec 16

/-- A console character: one 8-bit value (R95). -/
abbrev Byte := BitVec 8

/-- A register index: a 3-bit field of the instruction word; index `i` selects R`i` (R13). -/
abbrev RegIdx := BitVec 3

end Sys2Proof
end

