-- ==== Sys2Proof/Syntax.lean ====
section
/-! DEFINITION. The instructions: one constructor for each row of spec/opcode_table.json (30_encoding.md R55, R57). -/

namespace Sys2Proof

/-- One constructor per row of the opcode table. Operands are the fields of R50, unextended. -/
inductive Instr where
  /-- ADD, register mode (R67). -/
  | addReg (dr sr1 sr2 : RegIdx)
  /-- ADD, immediate mode (R68). -/
  | addImm (dr sr1 : RegIdx) (imm5 : BitVec 5)
  /-- AND, register mode (R69). -/
  | andReg (dr sr1 sr2 : RegIdx)
  /-- AND, immediate mode (R70). -/
  | andImm (dr sr1 : RegIdx) (imm5 : BitVec 5)
  /-- NOT (R71). -/
  | notReg (dr sr1 : RegIdx)
  /-- BR (R74): the selector `nzp` has n in bit 2, z in bit 1, p in bit 0. -/
  | br (nzp : BitVec 3) (offset9 : BitVec 9)
  /-- JMP (R75). -/
  | jmp (baseR : RegIdx)
  /-- JSR (R76). -/
  | jsr (offset11 : BitVec 11)
  /-- JSRR (R77). -/
  | jsrr (baseR : RegIdx)
  /-- LD (R83). -/
  | ld (dr : RegIdx) (offset9 : BitVec 9)
  /-- LDI (R84). -/
  | ldi (dr : RegIdx) (offset9 : BitVec 9)
  /-- LDR (R85). -/
  | ldr (dr baseR : RegIdx) (offset6 : BitVec 6)
  /-- LEA (R86). -/
  | lea (dr : RegIdx) (offset9 : BitVec 9)
  /-- ST (R87). -/
  | st (sr : RegIdx) (offset9 : BitVec 9)
  /-- STI (R88). -/
  | sti (sr : RegIdx) (offset9 : BitVec 9)
  /-- STR (R89). -/
  | str (sr baseR : RegIdx) (offset6 : BitVec 6)
  /-- RTI (R111). -/
  | rti
  /-- RES (R112). -/
  | res
  /-- TRAP x20, GETC (R96). -/
  | trapGetc
  /-- TRAP x21, OUT (R97). -/
  | trapOut
  /-- TRAP x22, PUTS (R98). -/
  | trapPuts
  /-- TRAP x23, IN (R99). -/
  | trapIn
  /-- TRAP x24, PUTSP (R100). -/
  | trapPutsp
  /-- TRAP x25, HALT (R101). -/
  | trapHalt
  /-- TRAP x26, INU16 (R102). -/
  | trapInu16
  /-- TRAP x27, OUTU16 (R103). -/
  | trapOutu16
  /-- TRAP with a vector of no routine (R93, R104). -/
  | trap (vector8 : BitVec 8)
deriving DecidableEq, Repr

end Sys2Proof
end

