-- ==== Sys2Proof/WellFormed.lean ====
section
/-! DEFINITION. Well-formed instructions: the terms that the decoder can answer (30_encoding.md R57, R58). -/

namespace Sys2Proof

/-- The eight vectors that select a routine, 0x20 to 0x27 (R57). -/
def isRoutineVector (v : BitVec 8) : Bool :=
  decide (0x20 ≤ v.toNat) && decide (v.toNat ≤ 0x27)

/-- The field widths are in the types; what is left to check is that the generic TRAP row, which is matched
last (R58), holds a vector of no routine. -/
def Instr.wellFormed : Instr → Bool
  | .addReg _ _ _ => true
  | .addImm _ _ _ => true
  | .andReg _ _ _ => true
  | .andImm _ _ _ => true
  | .notReg _ _ => true
  | .br _ _ => true
  | .jmp _ => true
  | .jsr _ => true
  | .jsrr _ => true
  | .ld _ _ => true
  | .ldi _ _ => true
  | .ldr _ _ _ => true
  | .lea _ _ => true
  | .st _ _ => true
  | .sti _ _ => true
  | .str _ _ _ => true
  | .rti => true
  | .res => true
  | .trapGetc => true
  | .trapOut => true
  | .trapPuts => true
  | .trapIn => true
  | .trapPutsp => true
  | .trapHalt => true
  | .trapInu16 => true
  | .trapOutu16 => true
  | .trap v => !isRoutineVector v

end Sys2Proof
end

