-- ==== Sys2Proof/Decode.lean ====
section
/-! DEFINITION. The decoder, the encoder and the opcode table (30_encoding.md R49 to R58). -/

namespace Sys2Proof

/-- The field `ir[lo + n - 1 : lo]` (R8). -/
def field (lo n : Nat) (ir : Word) : BitVec n := ir.extractLsb' lo n

/-- The 3-bit field of bits 11:9: DR, SR or NZP (R50). -/
def field11to9 (ir : Word) : BitVec 3 := field 9 3 ir

/-- The 3-bit field of bits 8:6: SR1 or BaseR (R50). -/
def field8to6 (ir : Word) : BitVec 3 := field 6 3 ir

/-- The sub-decode of TRAP by `ir[7:0]`: the routine rows first, the generic row last (R57, R58). -/
def decodeTrap (vector8 : BitVec 8) : Instr :=
  if vector8 = 0x20 then .trapGetc
  else if vector8 = 0x21 then .trapOut
  else if vector8 = 0x22 then .trapPuts
  else if vector8 = 0x23 then .trapIn
  else if vector8 = 0x24 then .trapPutsp
  else if vector8 = 0x25 then .trapHalt
  else if vector8 = 0x26 then .trapInu16
  else if vector8 = 0x27 then .trapOutu16
  else .trap vector8

/-- The decoder (R53, R135): a total function of the word that looks at `ir[15:12]` to choose the handler, then at
bit 5 for ADD and AND, at bit 11 for JSR and JSRR and at `ir[7:0]` for TRAP. All 16 opcodes are listed and there is
no default case (R119), so no word is rejected. The bits a layout fixes but the decoder does not check are
ignored (R54: UNVERIFIED, unsafe, the spec's decision D5, log 15); JSRR's register in bits 8:6 is log 16. -/
def decode (ir : Word) : Instr :=
  match ir.getLsbD 15, ir.getLsbD 14, ir.getLsbD 13, ir.getLsbD 12 with
  | false, false, false, false => .br (field11to9 ir) (field 0 9 ir)
  | false, false, false, true =>
    if ir.getLsbD 5 then .addImm (field11to9 ir) (field8to6 ir) (field 0 5 ir)
    else .addReg (field11to9 ir) (field8to6 ir) (field 0 3 ir)
  | false, false, true, false => .ld (field11to9 ir) (field 0 9 ir)
  | false, false, true, true => .st (field11to9 ir) (field 0 9 ir)
  | false, true, false, false =>
    if ir.getLsbD 11 then .jsr (field 0 11 ir) else .jsrr (field8to6 ir)
  | false, true, false, true =>
    if ir.getLsbD 5 then .andImm (field11to9 ir) (field8to6 ir) (field 0 5 ir)
    else .andReg (field11to9 ir) (field8to6 ir) (field 0 3 ir)
  | false, true, true, false => .ldr (field11to9 ir) (field8to6 ir) (field 0 6 ir)
  | false, true, true, true => .str (field11to9 ir) (field8to6 ir) (field 0 6 ir)
  | true, false, false, false => .rti
  | true, false, false, true => .notReg (field11to9 ir) (field8to6 ir)
  | true, false, true, false => .ldi (field11to9 ir) (field 0 9 ir)
  | true, false, true, true => .sti (field11to9 ir) (field 0 9 ir)
  | true, true, false, false => .jmp (field8to6 ir)
  | true, true, false, true => .res
  | true, true, true, false => .lea (field11to9 ir) (field 0 9 ir)
  | true, true, true, true => decodeTrap (field 0 8 ir)

/-- The word of an instruction, from the layouts of R51 and R55. An ignored bit gets the value the source's layout
shows (R51, last column); JSRR, RTI and RES, for which the source shows none, get zeros (R51). -/
def encode : Instr → Word
  | .addReg dr sr1 sr2 => 0b0001#4 ++ dr ++ sr1 ++ 0b000#3 ++ sr2
  | .addImm dr sr1 imm5 => 0b0001#4 ++ dr ++ sr1 ++ 0b1#1 ++ imm5
  | .andReg dr sr1 sr2 => 0b0101#4 ++ dr ++ sr1 ++ 0b000#3 ++ sr2
  | .andImm dr sr1 imm5 => 0b0101#4 ++ dr ++ sr1 ++ 0b1#1 ++ imm5
  | .notReg dr sr1 => 0b1001#4 ++ dr ++ sr1 ++ 0b111111#6
  | .br nzp offset9 => 0b0000#4 ++ nzp ++ offset9
  | .jmp baseR => 0b1100#4 ++ 0b000#3 ++ baseR ++ 0b000000#6
  | .jsr offset11 => 0b0100#4 ++ 0b1#1 ++ offset11
  | .jsrr baseR => 0b0100#4 ++ 0b0#1 ++ 0b00#2 ++ baseR ++ 0b000000#6
  | .ld dr offset9 => 0b0010#4 ++ dr ++ offset9
  | .ldi dr offset9 => 0b1010#4 ++ dr ++ offset9
  | .ldr dr baseR offset6 => 0b0110#4 ++ dr ++ baseR ++ offset6
  | .lea dr offset9 => 0b1110#4 ++ dr ++ offset9
  | .st sr offset9 => 0b0011#4 ++ sr ++ offset9
  | .sti sr offset9 => 0b1011#4 ++ sr ++ offset9
  | .str sr baseR offset6 => 0b0111#4 ++ sr ++ baseR ++ offset6
  | .rti => 0b1000000000000000
  | .res => 0b1101000000000000
  | .trapGetc => 0b1111000000100000
  | .trapOut => 0b1111000000100001
  | .trapPuts => 0b1111000000100010
  | .trapIn => 0b1111000000100011
  | .trapPutsp => 0b1111000000100100
  | .trapHalt => 0b1111000000100101
  | .trapInu16 => 0b1111000000100110
  | .trapOutu16 => 0b1111000000100111
  | .trap vector8 => 0b1111#4 ++ 0b0000#4 ++ vector8

/-- The ten formats of R51. -/
inductive Format where
  | RRR | RRI | RR | RB6 | R9 | B | BL | J11 | T | X
deriving DecidableEq, Repr

/-- A row of spec/opcode_table.json: a word `ir` is of the row when `ir &&& mask = pattern` (R58). -/
structure OpcodeRow where
  mnemonic : String
  format : Format
  pattern : Word
  mask : Word
deriving DecidableEq, Repr

/-- `(ir & mask) = match` (R58). -/
def OpcodeRow.covers (r : OpcodeRow) (ir : Word) : Bool := ir &&& r.mask == r.pattern

/-- spec/opcode_table.json, its 27 rows in its order; the routine rows stand before the generic TRAP row, so that
the first row that covers a word is the row of R58. -/
def opcodeTable : List OpcodeRow :=
  [ ⟨"ADD", .RRR, 0x1000, 0xF020⟩, ⟨"ADD", .RRI, 0x1020, 0xF020⟩,
    ⟨"AND", .RRR, 0x5000, 0xF020⟩, ⟨"AND", .RRI, 0x5020, 0xF020⟩, ⟨"NOT", .RR, 0x9000, 0xF000⟩,
    ⟨"BR", .R9, 0x0000, 0xF000⟩, ⟨"JMP", .B, 0xC000, 0xF000⟩,
    ⟨"JSR", .J11, 0x4800, 0xF800⟩, ⟨"JSRR", .BL, 0x4000, 0xF800⟩ ] ++
  [ ⟨"LD", .R9, 0x2000, 0xF000⟩, ⟨"LDI", .R9, 0xA000, 0xF000⟩, ⟨"LDR", .RB6, 0x6000, 0xF000⟩,
    ⟨"LEA", .R9, 0xE000, 0xF000⟩, ⟨"ST", .R9, 0x3000, 0xF000⟩, ⟨"STI", .R9, 0xB000, 0xF000⟩,
    ⟨"STR", .RB6, 0x7000, 0xF000⟩, ⟨"RTI", .X, 0x8000, 0xF000⟩, ⟨"RES", .X, 0xD000, 0xF000⟩ ] ++
  [ ⟨"TRAP.GETC", .T, 0xF020, 0xF0FF⟩, ⟨"TRAP.OUT", .T, 0xF021, 0xF0FF⟩,
    ⟨"TRAP.PUTS", .T, 0xF022, 0xF0FF⟩, ⟨"TRAP.IN", .T, 0xF023, 0xF0FF⟩,
    ⟨"TRAP.PUTSP", .T, 0xF024, 0xF0FF⟩, ⟨"TRAP.HALT", .T, 0xF025, 0xF0FF⟩,
    ⟨"TRAP.INU16", .T, 0xF026, 0xF0FF⟩, ⟨"TRAP.OUTU16", .T, 0xF027, 0xF0FF⟩,
    ⟨"TRAP", .T, 0xF000, 0xF000⟩ ]

/-- The row an instruction belongs to (R55, R57). -/
def Instr.row : Instr → OpcodeRow
  | .addReg _ _ _ => ⟨"ADD", .RRR, 0x1000, 0xF020⟩
  | .addImm _ _ _ => ⟨"ADD", .RRI, 0x1020, 0xF020⟩
  | .andReg _ _ _ => ⟨"AND", .RRR, 0x5000, 0xF020⟩
  | .andImm _ _ _ => ⟨"AND", .RRI, 0x5020, 0xF020⟩
  | .notReg _ _ => ⟨"NOT", .RR, 0x9000, 0xF000⟩
  | .br _ _ => ⟨"BR", .R9, 0x0000, 0xF000⟩
  | .jmp _ => ⟨"JMP", .B, 0xC000, 0xF000⟩
  | .jsr _ => ⟨"JSR", .J11, 0x4800, 0xF800⟩
  | .jsrr _ => ⟨"JSRR", .BL, 0x4000, 0xF800⟩
  | .ld _ _ => ⟨"LD", .R9, 0x2000, 0xF000⟩
  | .ldi _ _ => ⟨"LDI", .R9, 0xA000, 0xF000⟩
  | .ldr _ _ _ => ⟨"LDR", .RB6, 0x6000, 0xF000⟩
  | .lea _ _ => ⟨"LEA", .R9, 0xE000, 0xF000⟩
  | .st _ _ => ⟨"ST", .R9, 0x3000, 0xF000⟩
  | .sti _ _ => ⟨"STI", .R9, 0xB000, 0xF000⟩
  | .str _ _ _ => ⟨"STR", .RB6, 0x7000, 0xF000⟩
  | .rti => ⟨"RTI", .X, 0x8000, 0xF000⟩
  | .res => ⟨"RES", .X, 0xD000, 0xF000⟩
  | .trapGetc => ⟨"TRAP.GETC", .T, 0xF020, 0xF0FF⟩
  | .trapOut => ⟨"TRAP.OUT", .T, 0xF021, 0xF0FF⟩
  | .trapPuts => ⟨"TRAP.PUTS", .T, 0xF022, 0xF0FF⟩
  | .trapIn => ⟨"TRAP.IN", .T, 0xF023, 0xF0FF⟩
  | .trapPutsp => ⟨"TRAP.PUTSP", .T, 0xF024, 0xF0FF⟩
  | .trapHalt => ⟨"TRAP.HALT", .T, 0xF025, 0xF0FF⟩
  | .trapInu16 => ⟨"TRAP.INU16", .T, 0xF026, 0xF0FF⟩
  | .trapOutu16 => ⟨"TRAP.OUTU16", .T, 0xF027, 0xF0FF⟩
  | .trap _ => ⟨"TRAP", .T, 0xF000, 0xF000⟩

/-- What the decoder reads from an instruction whose bits are `w`, numbered as the opcode table numbers them: one
16-bit word (R49), of which the bits from `nbits` up are zero. -/
def decodeTableWord (nbits w : Nat) : Option Instr :=
  some (decode (BitVec.ofNat 16 (w % 2 ^ nbits)))

end Sys2Proof
end

