-- ==== Sys2Proof/Config.lean ====
section
/-! DEFINITION. The parameters of the machine (00_scope.md R5) as plain data, and their defaults. -/

namespace Sys2Proof

/-- `KBSR_READ_POLICY` (R5, R36, R37): what a read of `KBSR_ADDR` returns. -/
inductive KbsrReadPolicy where
  | stored
  | sentinel
deriving DecidableEq, Repr

/-- `JSRR_MODE` (R5, R77): how JSRR computes its target. -/
inductive JsrrMode where
  | jumpContents
  | addContents
  | addIndex
deriving DecidableEq, Repr

/-- `UNKNOWN_TRAP_POLICY` (R5, R104): TRAP with a vector outside 0x20 to 0x27. -/
inductive UnknownTrapPolicy where
  | nop
  | refuse
deriving DecidableEq, Repr

/-- `EOF_POLICY` (R5, R105): GETC, IN or INU16 with the console input exhausted. -/
inductive EofPolicy where
  | stuck
  | value (v : Word)
deriving DecidableEq, Repr

/-- `INU16_BAD_INPUT_POLICY` (R5, R102): INU16 on text that is no decimal numeral of 0 to 65535. -/
inductive BadInputPolicy where
  | stuck
  | refuse
  | value (v : Word)
deriving DecidableEq, Repr

/-- `ParseU16` (R9, R102): the configuration function of INU16, by name: the default grammar of the spec's D15, or any
other function, the uninterpreted `Config.parseU16` (log 13). -/
inductive ParseGrammar where
  | decimal
  | other
deriving DecidableEq, Repr

/-- What an answer of `Config.parseU16` says of the unread input: the number it denotes or bad input, and how many
characters are consumed; or that the input ends, or goes on for ever, before its text is complete. -/
inductive ParseAnswer where
  | number (n : Word) (used : Nat)
  | bad (used : Nat)
  | unfinished
deriving DecidableEq, Repr, Inhabited

/-- A piece of an endless input: blanks, digits and the character that ends them (log 9). -/
structure InputPiece where
  blanks : List (Fin 6)
  digits : List (Fin 10)
  stop : Byte
deriving DecidableEq, Repr, Inhabited

/-- What follows the listed characters of a console input: nothing, or for ever the free characters of one of the three
shapes that an infinite sequence can have (log 9): pieces, blanks, or digits. `next` is the first that is not consumed. -/
inductive InputTail where
  | ended
  | pieces (next : Nat)
  | blanks (next : Nat)
  | digits (next : Nat)
deriving DecidableEq, Repr

/-- A "finite or infinite sequence of 8-bit characters" (R5) as plain data: the listed characters, then the tail. -/
structure ConsoleInput where
  text : List Byte
  tail : InputTail
deriving DecidableEq, Repr

/-- Free: the pieces of an endless input (log 9). -/
opaque Config.inputPiece : Nat → InputPiece

/-- Free: the blanks of an input that ends in blanks for ever (log 9). -/
opaque Config.inputBlank : Nat → Fin 6

/-- Free: the digits of an input that ends in digits for ever (log 9). -/
opaque Config.inputDigit : Nat → Fin 10

/-- Free: the configuration function `ParseU16` where it is not the default grammar (R102; log 13). Its argument is the
unread input, character by character. -/
opaque Config.parseU16 : (Nat → Option Byte) → ParseAnswer

/-- The parameters of R5 ("A model takes each as an argument"). They are held in `State.cfg`, so that a
statement about every state is a statement about every value of them (log 1). The initial memory image of R5
is not here: it is what the loads leave in memory (R133). -/
structure Params where
  /-- `PC_START`: `pc` after reset, and the loader's base address. -/
  pcStart : Word
  /-- `COND_RESET`: `cond` after reset. -/
  condReset : BitVec 3
  /-- `KBSR_ADDR`: the keyboard status register's address. -/
  kbsrAddr : Word
  kbsrReadPolicy : KbsrReadPolicy
  /-- `KBSR_NO_KEY`: the "no key pressed" sentinel, used only under `sentinel`. -/
  kbsrNoKey : Word
  jsrrMode : JsrrMode
  unknownTrapPolicy : UnknownTrapPolicy
  eofPolicy : EofPolicy
  inu16BadInputPolicy : BadInputPolicy
  /-- `ParseU16`: how INU16 reads its text (R102). -/
  parseU16 : ParseGrammar
  /-- The console input: all that the environment will supply to GETC, IN and INU16. -/
  consoleInput : ConsoleInput
deriving DecidableEq, Repr

/-- The defaults of R5. UNVERIFIED, unsafe: `pcStart` and `condReset` (log 2), the grammar (log 13), the policies
(log 14, 16, 17).
PRESUMED by the spec from the family, unsafe: `kbsrAddr` and `kbsrNoKey` (log 3). -/
def Params.default : Params where
  pcStart := 0x3000
  condReset := 0b000
  kbsrAddr := 0xFE00
  kbsrReadPolicy := .stored
  kbsrNoKey := 0x0000
  jsrrMode := .jumpContents
  unknownTrapPolicy := .nop
  eofPolicy := .stuck
  inu16BadInputPolicy := .refuse
  parseU16 := .decimal
  consoleInput := ⟨[], .ended⟩

end Sys2Proof
end

