-- ==== Sys2Proof/Machine/State.lean ====
section
/-! DEFINITION. The state of the machine, as plain data, and its value after reset (10_state.md R13 to R28). -/

namespace Sys2Proof.Machine

/-- The kinds of fatal condition (R21). Only `unimplementedOpcode` is raised by an instruction (R117); the other two
are names of the taxonomy (R118, R119; DEDUCED, safe, log 20). -/
inductive FatalKind where
  | unimplementedOpcode
  | loaderFailure
  | unreachableDispatch
deriving DecidableEq, Repr

/-- The run state (R21), and `beforeStart`, the time between `Reset` and `Start`, in which the core does not step
and `run` is not yet `Running` (R26, R132, vector Z1; DEDUCED, safe, log 6). -/
inductive RunState where
  | beforeStart
  | running
  | halted
  | fatal (kind : FatalKind)
deriving DecidableEq, Repr

/-- What the core sends to its environment: a character of console output, or the "device poll" of a read of
`KBSR_ADDR` (00_scope.md R6 d to f). -/
inductive Signal where
  | conOut (b : Byte)
  | poll
deriving DecidableEq, Repr

/-- A memory cell: a word address and the 16-bit word there. DEDUCED, safe, log 4: the unit of addressing is the
word and the core has no byte order (R23, R39), so a cell holds a word, not a byte. -/
abbrev Cell := Nat × Word

/-- Memory: the cells that do not hold the reset value 0x0000, their addresses strictly rising (R23, R26; log 5). -/
abbrev Memory := List Cell

/-- What an address that is not listed reads as: the reset contents, 0x0000 (R26, R33; DEDUCED, safe, log 5). -/
def Memory.unlisted : Word := 0x0000

/-- The canonical form: addresses strictly rising, all below 65536, no cell that holds what an unlisted address
reads as. -/
abbrev Memory.wf (m : Memory) : Prop :=
  m.Pairwise (fun c d => c.1 < d.1) ∧ ∀ c ∈ m, c.1 < 65536 ∧ c.2 ≠ Memory.unlisted

/-- The state: the architectural state of R13 to R23, the environment state of R25, and the parameters of R5. -/
structure State where
  /-- `x[0]` to `x[7]` (R13). -/
  regs : Vector Word 8
  /-- The program counter (R16). -/
  pc : Word
  /-- The condition codes: N = 100, Z = 010, P = 001 (R18; DEDUCED, safe, log 18). -/
  cond : BitVec 3
  /-- The run state (R21). -/
  run : RunState
  /-- The memory array (R23). -/
  mem : Memory
  /-- The unread remainder of the console input (R25 a), finite or infinite; the count in its tail is the
  model's own, the first free character not consumed (DEDUCED, safe, log 9). -/
  input : ConsoleInput
  /-- The signals sent to the environment, oldest first: the console output of R25 b and the `Poll()` signals of
  R33, in one order (DESIGN CHOICE, safe, log 11). -/
  signals : List Signal
  /-- The parameters (R5); no step changes them (DESIGN CHOICE, safe, log 1). -/
  cfg : Params
deriving DecidableEq, Repr

/-- Why a step never completes (R141 b, c). DESIGN CHOICE, safe, log 10: the spec's "stuck" is a stop with a name, so that
nothing can be claimed of a next state. `sent` is all that the environment has received by then, with the fetch's signal,
oldest first; the run state stays `Running`. -/
inductive Fault where
  /-- GETC, IN or INU16 with the console input exhausted, under `EOF_POLICY = stuck` (R105). Safe. -/
  | inputExhausted (sent : List Signal)
  /-- INU16 on bad input, under `INU16_BAD_INPUT_POLICY = stuck` (R102). Safe. -/
  | inu16BadInput (sent : List Signal)
  /-- INU16 on an endless input whose text never ends: blanks for ever, or digits for ever (R6 d, R102), or
  what another configuration function calls never complete (log 13). Safe. -/
  | numberNeverEnds (sent : List Signal)
  /-- PUTS or PUTSP when no word of memory reads as zero (R98, R100, R141 c): after `sent`, what one turn of the walk round
  the ring of memory sends, `turn`, is sent again and again for ever. Safe. -/
  | stringNeverEnds (sent turn : List Signal)
deriving DecidableEq, Repr

/-- Why the model gives a step no meaning. -/
inductive Refusal where
  /-- An instruction that has no meaning yet, raised in a dispatch arm alone. Safe; no arm raises it. -/
  | notModelled (mnemonic : String)
  /-- TRAP with a vector of no routine, under `UNKNOWN_TRAP_POLICY = refuse` (R104). Safe. -/
  | unknownTrapVector (vector8 : BitVec 8)
  /-- INU16 on bad input, under `INU16_BAD_INPUT_POLICY = refuse` (R102). Safe. -/
  | inu16BadInput
deriving DecidableEq, Repr

/-- The state right after `Reset`, for given parameters (R26, R131): registers and memory zero, `pc` at `PC_START`,
`cond` at `COND_RESET`, the console input at its first character, nothing sent to the environment, not started. -/
def State.resetTo (p : Params) : State where
  regs := Vector.replicate 8 0x0000
  pc := p.pcStart
  cond := p.condReset
  run := .beforeStart
  mem := []
  input := p.consoleInput
  signals := []
  cfg := p

/-- The state right after `Reset`, at the default parameters of R5. -/
def State.reset : State := State.resetTo Params.default

end Sys2Proof.Machine
end

