-- ==== Sys2Proof/Machine/Ops.lean ====
section
/-! DEFINITION. The named operations over registers, memory, console and run state (00_scope.md R6, R9; 20_memory.md
R31 to R37; 60_exceptions.md R116), and the ports of the environment (70_reset_and_hazards.md R131 to R133). -/

namespace Sys2Proof.Machine

/-- How a meaning ends: a next state, a fault or a refusal. -/
abbrev Result := Host.Outcome State Fault Refusal

/-! Memory as a list of cells (R23). -/

/-- The word at an address; an unlisted address holds 0x0000. -/
def Memory.get : Memory → Nat → Word
  | [], _ => Memory.unlisted
  | c :: m, a => if c.1 = a then c.2 else Memory.get m a

/-- The cells with a word written at an address, in canonical form: writing what an unlisted address reads as
removes the cell. -/
def Memory.set : Memory → Nat → Word → Memory
  | [], a, v => if v = Memory.unlisted then [] else [(a, v)]
  | c :: m, a, v =>
    if c.1 < a then c :: Memory.set m a v
    else
      let rest := if c.1 = a then m else c :: m
      if v = Memory.unlisted then rest else (a, v) :: rest

/-! Registers (R13): eight plain read-write registers, none hard-wired. -/

theorem regIdx_lt (r : RegIdx) : r.toNat < 8 := r.isLt

/-- `x[r]` (R9). -/
def State.reg (s : State) (r : RegIdx) : Word := s.regs[r.toNat]'(regIdx_lt r)

/-- `x[r] <- v` (R9). -/
def State.setReg (s : State) (r : RegIdx) (v : Word) : State :=
  { s with regs := s.regs.set r.toNat v (regIdx_lt r) }

/-- `pc <- target` (R9). -/
def State.setPc (s : State) (target : Word) : State := { s with pc := target }

/-- `cond <- c` (R9). -/
def State.setCond (s : State) (c : BitVec 3) : State := { s with cond := c }

/-- `run <- r` (R9). -/
def State.setRun (s : State) (r : RunState) : State := { s with run := r }

/-! The console and the device poll (R6 d to f). -/

/-- The unread console input becomes `rest`. -/
def State.setInput (s : State) (rest : ConsoleInput) : State := { s with input := rest }

/-- Signals go to the environment, in order. Output is always accepted (R138; UNVERIFIED, unsafe, log 23). -/
def State.send (s : State) (l : List Signal) : State := { s with signals := s.signals ++ l }

/-- `ConOut(b)`: one character is appended to the console output (R95). -/
def State.conOut (s : State) (b : Byte) : State := s.send [.conOut b]

/-- `Poll()`: the "device poll" signal (R33, R36). -/
def State.poll (s : State) : State := s.send [.poll]

/-- The character of a `ConOut` signal. -/
def Signal.char? : Signal → Option Byte
  | .conOut b => some b
  | .poll => none

/-- The console output sequence (R25 b). -/
def State.output (s : State) : List Byte := s.signals.filterMap Signal.char?

/-- How many `Poll()` signals have been sent (R36). -/
def State.polls (s : State) : Nat := s.signals.countP (· == Signal.poll)

/-! `MemRead` and `MemWrite` (R31, R33, R34): total, one word, never a fault. -/

/-- The word stored at a word address. -/
def State.word (s : State) (a : Word) : Word := s.mem.get a.toNat

/-- The word that `MemRead(a, 1)` returns (R33): at `KBSR_ADDR` under `sentinel` the constant `KBSR_NO_KEY` (R37),
else the stored word. -/
def State.reads (s : State) (a : Word) : Word :=
  if a = s.cfg.kbsrAddr ∧ s.cfg.kbsrReadPolicy = .sentinel then s.cfg.kbsrNoKey else s.word a

/-- The signals of a `MemRead` (R33, R36): a `Poll()` at `KBSR_ADDR`, none elsewhere. That every read of memory
signals, fetches and string walks too, is the spec's decision D11 (UNVERIFIED, unsafe, log 21). -/
def State.readSignals (s : State) (a : Word) : List Signal :=
  if a = s.cfg.kbsrAddr then [.poll] else []

/-- `MemRead(a, 1)`: the word, and the state after the read's side effect (R33). -/
def memRead (a : Word) (s : State) : Word × State := (s.reads a, s.send (s.readSignals a))

/-- `MemWrite(a, 1, v)` (R34), a plain store at `KBSR_ADDR` too (UNVERIFIED, unsafe, the spec's D12, log 21). -/
def memWrite (a v : Word) (s : State) : State := { s with mem := s.mem.set a.toNat v }

/-! Taking a fatal condition, the one exception an instruction raises (R115, R116). There is no return from it
(R123, R124): only `Reset` leaves it. -/

/-- `raise Fatal(kind)` (R116): `run <- Fatal(kind)` and the step ends; nothing is saved, nothing is unwound, `pc`
stays incremented. -/
def raiseFatal (kind : FatalKind) (s : State) : Result := .next (s.setRun (.fatal kind))

/-! The ports of the environment (R6 a to c, R131 to R133, R138; DESIGN CHOICE, safe, log 8). -/

/-- `Reset`, from any state (R131): every piece of state at its reset value, the parameters kept. -/
def State.portReset (s : State) : State := State.resetTo s.cfg

/-- The words in memory at `base`, `base + 1`, … in order (R133). -/
def writeWords : Nat → List Word → Memory → Memory
  | _, [], m => m
  | base, w :: ws, m => writeWords (base + 1) ws (m.set base w)

/-- `Load(base, words)` (R133), allowed between `Reset` and `Start` only (R6 b), and only where the words fit below
the top of memory: the spec gives an oversize image no launch state (D21, U13). -/
def State.portLoad (base : Word) (words : List Word) (s : State) : Option State :=
  if s.run = .beforeStart ∧ base.toNat + words.length ≤ 65536 then
    some { s with mem := writeWords base.toNat words s.mem }
  else none

/-- `Start` (R132): the run state becomes `Running`. -/
def State.portStart (s : State) : Option State :=
  if s.run = .beforeStart then some (s.setRun .running) else none

/-- The start of a run (R132, R137): `Reset`, one image loaded at `PC_START`, `Start`. -/
def launch (p : Params) (image : List Word) : Option State :=
  ((State.resetTo p).portLoad p.pcStart image).bind State.portStart

end Sys2Proof.Machine
end

