-- ==== Sys2Proof/Machine/Flags.lean ====
section
/-! DEFINITION. The condition codes (10_state.md R18 to R20). -/

namespace Sys2Proof.Machine

/-- NEGATIVE (R18). The three bit values: DEDUCED, safe, the spec's D4, log 18. -/
def condNegative : BitVec 3 := 0b100

/-- ZERO (R18). -/
def condZero : BitVec 3 := 0b010

/-- POSITIVE (R18). -/
def condPositive : BitVec 3 := 0b001

/-- The flag of a value (R19): ZERO if 0, else NEGATIVE if bit 15 is set, else POSITIVE. -/
def condOf (v : Word) : BitVec 3 :=
  if v = 0 then condZero else if v.getLsbD 15 then condNegative else condPositive

/-- `setcc(v)` (R19). -/
def setcc (v : Word) (s : State) : State := s.setCond (condOf v)

/-- `x[DR] <- v; setcc(v)`: the common end of ADD, AND, NOT, LD, LDI, LDR and LEA (R65 c, R82 b). -/
def writeDest (dr : RegIdx) (v : Word) (s : State) : State := setcc v (s.setReg dr v)

/-- The branch test `(NZP & cond) != 0` (R74). -/
def branchTaken (nzp : BitVec 3) (s : State) : Bool := nzp &&& s.cond != 0

end Sys2Proof.Machine
end

