-- ==== Sys2Proof/Machine/Operands.lean ====
section
/-! DEFINITION. Operand forms: extensions (00_scope.md R9, R10), effective addresses (42_load_store.md R81), the
PC-relative and register targets (41_control.md R73 to R77), console characters (43_trap.md R95). -/

namespace Sys2Proof.Machine

/-- `sext_N(v)` (R10): with bit N-1 set, the field plus `65536 - 2^N`; else the field. -/
def sext {n : Nat} (v : BitVec n) : Word :=
  if v.msb then v.setWidth 16 + BitVec.ofNat 16 (65536 - 2 ^ n) else v.setWidth 16

/-- `zext_N(v)` (R9): the same number in 16 bits. -/
def zext {n : Nat} (v : BitVec n) : Word := v.setWidth 16

/-- Bits 7:0 of a word (R97, R98, R100). -/
def lowByte (w : Word) : Byte := w.extractLsb' 0 8

/-- Bits 15:8 of a word (R100). -/
def highByte (w : Word) : Byte := w.extractLsb' 8 8

/-- `(pc + sext_N(offset)) mod 65536` with the incremented `pc`: the PC-relative effective address (R81) and the
PC-relative target (R74, R76). -/
def pcRelative {n : Nat} (s : State) (offset : BitVec n) : Word := s.pc + sext offset

/-- `(x[BaseR] + sext_6(OFFSET6)) mod 65536`: the base plus offset effective address (R81). -/
def baseOffset (s : State) (baseR : RegIdx) (offset6 : BitVec 6) : Word := s.reg baseR + sext offset6

/-- The indirect address of LDI and STI (R84, R88): the pointer is the word that `MemRead` returns at the PC-relative
address. -/
def indirect (offset9 : BitVec 9) (s : State) : Word × State := memRead (pcRelative s offset9) s

/-- The target of JSRR (R77), read from the state in which `x[7]` has already been written. The default mode is the
spec's decision D6, the order its decision D7 (UNVERIFIED, unsafe, log 16). -/
def jsrrTarget (s : State) (baseR : RegIdx) : Word :=
  match s.cfg.jsrrMode with
  | .jumpContents => s.reg baseR
  | .addContents => s.pc + s.reg baseR
  | .addIndex => s.pc + zext baseR

end Sys2Proof.Machine
end

