-- ==== Sys2Proof/Machine/Alu.lean ====
section
/-! DEFINITION. ADD, AND and NOT (40_alu.md R65 to R71). Each meaning runs after the fetch and the increment of `pc`. -/

namespace Sys2Proof.Machine

/-- ADD, register mode (R67). -/
def execAddReg (dr sr1 sr2 : RegIdx) (s : State) : Result :=
  .next (writeDest dr (s.reg sr1 + s.reg sr2) s)

/-- ADD, immediate mode (R68). -/
def execAddImm (dr sr1 : RegIdx) (imm5 : BitVec 5) (s : State) : Result :=
  .next (writeDest dr (s.reg sr1 + sext imm5) s)

/-- AND, register mode (R69). -/
def execAndReg (dr sr1 sr2 : RegIdx) (s : State) : Result :=
  .next (writeDest dr (s.reg sr1 &&& s.reg sr2) s)

/-- AND, immediate mode (R70). -/
def execAndImm (dr sr1 : RegIdx) (imm5 : BitVec 5) (s : State) : Result :=
  .next (writeDest dr (s.reg sr1 &&& sext imm5) s)

/-- NOT (R71). -/
def execNotReg (dr sr1 : RegIdx) (s : State) : Result :=
  .next (writeDest dr (~~~(s.reg sr1)) s)

end Sys2Proof.Machine
end

