-- ==== Sys2Proof/Machine/Control.lean ====
section
/-! DEFINITION. BR, JMP, JSR and JSRR (41_control.md R73 to R78). `pc` is the incremented value. -/

namespace Sys2Proof.Machine

/-- BR (R74). -/
def execBr (nzp : BitVec 3) (offset9 : BitVec 9) (s : State) : Result :=
  .next (if branchTaken nzp s then s.setPc (pcRelative s offset9) else s)

/-- JMP (R75). -/
def execJmp (baseR : RegIdx) (s : State) : Result :=
  .next (s.setPc (s.reg baseR))

/-- The link of JSR and JSRR: `x[7] <- pc`, the return address, without `setcc` (R76, R77). -/
def link (s : State) : State := s.setReg 7 s.pc

/-- JSR (R76). -/
def execJsr (offset11 : BitVec 11) (s : State) : Result :=
  .next ((link s).setPc (pcRelative s offset11))

/-- JSRR (R77): `x[7]` is written first, so `JSRR R7` reads the new `x[7]`. -/
def execJsrr (baseR : RegIdx) (s : State) : Result :=
  .next ((link s).setPc (jsrrTarget (link s) baseR))

end Sys2Proof.Machine
end

