-- ==== Sys2Proof/Machine/LoadStore.lean ====
section
/-! DEFINITION. LD, LDI, LDR, LEA, ST, STI and STR (42_load_store.md R81 to R89). -/

namespace Sys2Proof.Machine

/-- The load of the word at an address: `v <- MemRead(ea, 1); x[DR] <- v; setcc(v)` (R82 b). -/
def loadFrom (dr : RegIdx) (ea : Word) (s : State) : State :=
  let (v, s1) := memRead ea s
  writeDest dr v s1

/-- LD (R83). -/
def execLd (dr : RegIdx) (offset9 : BitVec 9) (s : State) : Result :=
  .next (loadFrom dr (pcRelative s offset9) s)

/-- LDI (R84): two chained reads, the pointer's first. -/
def execLdi (dr : RegIdx) (offset9 : BitVec 9) (s : State) : Result :=
  let (p, s1) := indirect offset9 s
  .next (loadFrom dr p s1)

/-- LDR (R85). -/
def execLdr (dr baseR : RegIdx) (offset6 : BitVec 6) (s : State) : Result :=
  .next (loadFrom dr (baseOffset s baseR offset6) s)

/-- LEA (R86): the address itself, with no memory access; it writes `cond`. -/
def execLea (dr : RegIdx) (offset9 : BitVec 9) (s : State) : Result :=
  .next (writeDest dr (pcRelative s offset9) s)

/-- ST (R87). -/
def execSt (sr : RegIdx) (offset9 : BitVec 9) (s : State) : Result :=
  .next (memWrite (pcRelative s offset9) (s.reg sr) s)

/-- STI (R88): one read for the address, then one write. -/
def execSti (sr : RegIdx) (offset9 : BitVec 9) (s : State) : Result :=
  let (p, s1) := indirect offset9 s
  .next (memWrite p (s.reg sr) s1)

/-- STR (R89). -/
def execStr (sr baseR : RegIdx) (offset6 : BitVec 6) (s : State) : Result :=
  .next (memWrite (baseOffset s baseR offset6) (s.reg sr) s)

end Sys2Proof.Machine
end

