-- ==== Sys2Proof/Machine/Reserved.lean ====
section
/-! DEFINITION. RTI and RES (44_reserved.md R111, R112). -/

namespace Sys2Proof.Machine

/-- RTI (R111): always `Fatal(UnimplementedOpcode)`. -/
def execRti (s : State) : Result := raiseFatal .unimplementedOpcode s

/-- RES (R112): always `Fatal(UnimplementedOpcode)`. -/
def execRes (s : State) : Result := raiseFatal .unimplementedOpcode s

end Sys2Proof.Machine
end

