-- ==== Sys2Proof/Machine/Console.lean ====
section
/-! DEFINITION. The console input, finite or infinite (00_scope.md R5, R6 d; 43_trap.md R95). -/

namespace Sys2Proof.Machine

/-- The blanks of the default grammar: 0x20, 0x09, 0x0A, 0x0B, 0x0C, 0x0D (R102). -/
def isBlank (c : Byte) : Bool := c == 0x20 || (decide (0x09 ≤ c.toNat) && decide (c.toNat ≤ 0x0D))

/-- The characters '0' to '9', 0x30 to 0x39 (R102). -/
def isDigit (c : Byte) : Bool := decide (0x30 ≤ c.toNat) && decide (c.toNat ≤ 0x39)

/-- The character of a decimal digit (R102, R103). -/
def digitByte (d : Nat) : Byte := BitVec.ofNat 8 (0x30 + d)

/-- The six blanks (R102). -/
def blankByte (b : Fin 6) : Byte := if b = 0 then 0x20 else BitVec.ofNat 8 (0x08 + b)

/-! Endless inputs (log 9): the free characters, cut where INU16 ends a number. -/

/-- The character that ends a piece: no digit, and no blank where no digit precedes it. A free value that is neither is
replaced by 0x00. -/
def pieceStop (p : InputPiece) : Byte :=
  if isDigit p.stop || (p.digits.isEmpty && isBlank p.stop) then 0x00 else p.stop

/-- The characters of a piece. -/
def pieceText (p : InputPiece) : List Byte :=
  p.blanks.map blankByte ++ p.digits.map (fun d => digitByte d) ++ [pieceStop p]

/-- Character `n` of the pieces `p 0`, `p 1`, … in a row; each holds one character at least. -/
def piecesChar (p : Nat → InputPiece) (n : Nat) : Option Byte :=
  ((List.range (n + 1)).flatMap fun m => pieceText (p m))[n]?

/-- Character `n` of a tail, none where the input ends. -/
def tailChar : InputTail → Nat → Option Byte
  | .ended, _ => none
  | .pieces next, n => piecesChar (fun m => Config.inputPiece (next + m)) n
  | .blanks next, n => some (blankByte (Config.inputBlank (next + n)))
  | .digits next, n => some (digitByte (Config.inputDigit (next + n)))

/-- Character `n` of the unread console input, none where it has ended. -/
def unread (i : ConsoleInput) (n : Nat) : Option Byte :=
  if n < i.text.length then i.text[n]? else tailChar i.tail (n - i.text.length)

/-- The next characters of a tail, and the tail after them. -/
def refill : InputTail → List Byte × InputTail
  | .ended => ([], .ended)
  | .pieces next => (pieceText (Config.inputPiece next), .pieces (next + 1))
  | .blanks next => ([blankByte (Config.inputBlank next)], .blanks (next + 1))
  | .digits next => ([digitByte (Config.inputDigit next)], .digits (next + 1))

/-- `ConIn()`: the first unread character and what is left, none where the input is exhausted (R95, R105). -/
def conIn (i : ConsoleInput) : Option (Byte × ConsoleInput) :=
  match i.text with
  | c :: rest => some (c, ⟨rest, i.tail⟩)
  | [] =>
    match (refill i.tail).1 with
    | c :: rest => some (c, ⟨rest, (refill i.tail).2⟩)
    | [] => none

/-- The input after `n` characters, or all that there are. -/
def dropChars : Nat → ConsoleInput → ConsoleInput
  | 0, i => i
  | n + 1, i =>
    match conIn i with
    | some (_, rest) => dropChars n rest
    | none => i

end Sys2Proof.Machine
end

