-- ==== Sys2Proof/Machine/Trap.lean ====
section
/-! DEFINITION. The trap routines (43_trap.md R93 to R105). A routine is the complete behaviour of the TRAP
instruction of its vector: no entry, no link in `x[7]`, no vector table (R94, R122; UNVERIFIED, unsafe, the spec's
D9, log 17). What the routines write to the console and to `cond` is log 19. -/

namespace Sys2Proof.Machine

/-! Console input (R95, R105). -/

/-- The end of the console input (R105): stuck for ever, or the routine goes on with `v`. -/
def atEndOfInput (s : State) (k : Word → Result) : Result :=
  match s.cfg.eofPolicy with
  | .stuck => .fault (.inputExhausted s.signals)
  | .value v => k v

/-- GETC (R96): one character, zero-extended, no echo, no flags. -/
def execTrapGetc (s : State) : Result :=
  match conIn s.input with
  | some (c, rest) => .next ((s.setInput rest).setReg 0 (zext c))
  | none => atEndOfInput s (fun v => .next (s.setReg 0 v))

/-- OUT (R97): bits 7:0 of `x[0]`. -/
def execTrapOut (s : State) : Result := .next (s.conOut (lowByte (s.reg 0)))

/-- IN (R99): read, echo, `x[0]`, `setcc`. At the end of input it echoes nothing and applies `setcc(v)` (R105). -/
def execTrapIn (s : State) : Result :=
  match conIn s.input with
  | some (c, rest) => .next (writeDest 0 (zext c) ((s.setInput rest).conOut c))
  | none => atEndOfInput s (fun v => .next (writeDest 0 v s))

/-! Strings in memory (R98, R100). -/

/-- The walk of PUTS and PUTSP from address `a`: read a word; if it is zero, end; else write its characters and go on
at the next address, modulo 65536. Answers whether a zero word was met among the next `fuel` words, and the state then. -/
def putString (chars : Word → List Byte) : Nat → Word → State → Bool × State
  | 0, _, s => (false, s)
  | fuel + 1, a, s =>
    let (w, s1) := memRead a s
    if w = 0x0000 then (true, s1)
    else putString chars fuel (a + 1) (s1.send ((chars w).map Signal.conOut))

/-- A walk does not change what the words read as, so one that has met no zero word in 65536 reads is back where it began
and never ends (R98, R141 c; U9): the step never completes, and what the turn has sent is sent for ever (log 10). -/
def putStringFrom (chars : Word → List Byte) (a : Word) (s : State) : Result :=
  match putString chars 65536 a s with
  | (true, t) => .next t
  | (false, t) => .fault (.stringNeverEnds s.signals (t.signals.drop s.signals.length))

/-- The character of a PUTS word: bits 7:0 (R98). -/
def putsChars (w : Word) : List Byte := [lowByte w]

/-- The characters of a PUTSP word: the low byte, then the high byte if nonzero (R100). -/
def putspChars (w : Word) : List Byte :=
  if highByte w = 0 then [lowByte w] else [lowByte w, highByte w]

/-- PUTS (R98). -/
def execTrapPuts (s : State) : Result := putStringFrom putsChars (s.reg 0) s

/-- PUTSP (R100). -/
def execTrapPutsp (s : State) : Result := putStringFrom putspChars (s.reg 0) s

/-- HALT (R101): no message, `pc` stays incremented. -/
def execTrapHalt (s : State) : Result := .next (s.setRun .halted)

/-! Decimal text (R102, R103). -/

/-- The decimal value of a run of digits, most significant first, leading zeros allowed (R102). -/
def decimalValue (digits : List Byte) : Nat :=
  digits.foldl (fun n c => 10 * n + (c.toNat - 0x30)) 0

/-- What the default grammar finds in a text that is not continued. -/
inductive ParsedText where
  | number (n : Word) (rest : List Byte)
  | bad (rest : List Byte)
  | onlyBlanks
deriving DecidableEq, Repr

/-- The default grammar of R102 (the spec's D15; UNVERIFIED, unsafe, log 13) on a text: discard the blanks, take the longest
run of digits, leave the next character unread. An empty run, or a value above 65535, is bad input; what bad input leaves
unread is log 12 (DEDUCED, unsafe). -/
def parseText (input : List Byte) : ParsedText :=
  let text := input.dropWhile isBlank
  let digits := text.takeWhile isDigit
  let rest := text.dropWhile isDigit
  if text = [] then .onlyBlanks
  else if digits = [] ∨ 65535 < decimalValue digits then .bad rest
  else .number (BitVec.ofNat 16 (decimalValue digits)) rest

/-- What `ParseU16` finds at the front of the unread input (R102), with the input it leaves. `unfinished`: the input ends,
or goes on for ever, before the text is complete. -/
inductive ParsedU16 where
  | number (n : Word) (rest : ConsoleInput)
  | bad (rest : ConsoleInput)
  | unfinished
deriving DecidableEq, Repr

/-- What is found in the text, with the tail that follows it. -/
def ParsedText.before (tail : InputTail) : ParsedText → ParsedU16
  | .number n rest => .number n ⟨rest, tail⟩
  | .bad rest => .bad ⟨rest, tail⟩
  | .onlyBlanks => .unfinished

/-- The run of digits, empty or not, ends before the end of the text: what follows the text does not matter. -/
def endsInside (text : List Byte) : Bool := !((text.dropWhile isBlank).dropWhile isDigit).isEmpty

/-- The default grammar on an input (R102, R105). A run of digits ends at the end of the input, and at the blanks that an
input ends in; among the pieces of an endless input it ends in the next piece at the latest; on digits for ever it has no
end. -/
def parseDecimal (i : ConsoleInput) : ParsedU16 :=
  match i.tail with
  | .ended => (parseText i.text).before .ended
  | .blanks next => (parseText i.text).before (.blanks next)
  | .digits next => if endsInside i.text then (parseText i.text).before (.digits next) else .unfinished
  | .pieces next =>
    if endsInside i.text then (parseText i.text).before (.pieces next)
    else (parseText (i.text ++ pieceText (Config.inputPiece next))).before (.pieces (next + 1))

/-- Any other configuration function (R9, R102; log 13): free, but that it consumes from the front (R25 a) and that an
exhausted input is the end of input (R105). -/
def parseOther (i : ConsoleInput) : ParsedU16 :=
  if (unread i 0).isNone then .unfinished
  else
    match Config.parseU16 (unread i) with
    | .number n used => .number n (dropChars used i)
    | .bad used => .bad (dropChars used i)
    | .unfinished => .unfinished

/-- `ParseU16(unread console input)` (R102). -/
def parseU16 (grammar : ParseGrammar) (i : ConsoleInput) : ParsedU16 :=
  match grammar with
  | .decimal => parseDecimal i
  | .other => parseOther i

/-- INU16 (R102): `x[0]` gets the number, without flags, echo or prompt. A text that is never complete: end of input on a
finite input (R105), a step that never completes on an endless one. -/
def execTrapInu16 (s : State) : Result :=
  match parseU16 s.cfg.parseU16 s.input with
  | .number n rest => .next ((s.setInput rest).setReg 0 n)
  | .bad rest =>
    match s.cfg.inu16BadInputPolicy with
    | .stuck => .fault (.inu16BadInput s.signals)
    | .refuse => .refused .inu16BadInput
    | .value v => .next ((s.setInput rest).setReg 0 v)
  | .unfinished =>
    if s.input.tail = .ended then atEndOfInput s (fun v => .next ((s.setInput ⟨[], .ended⟩).setReg 0 v))
    else .fault (.numberNeverEnds s.signals)

/-- The digits of the decimal numeral of `n`, most significant first, no leading zero; `fuel` bounds their number. -/
def decimalDigits : Nat → Nat → List Nat
  | 0, _ => []
  | fuel + 1, n => if n < 10 then [n] else decimalDigits fuel (n / 10) ++ [n % 10]

/-- The numeral of a word: at most five characters, `0x30 + d` for each digit (R103). -/
def decimalText (n : Word) : List Byte :=
  (decimalDigits 5 n.toNat).map digitByte

/-- OUTU16 (R103). -/
def execTrapOutu16 (s : State) : Result :=
  .next (s.send ((decimalText (s.reg 0)).map Signal.conOut))

/-- TRAP with a vector of no routine (R104): nothing, or refused, by `UNKNOWN_TRAP_POLICY` (UNVERIFIED, unsafe, the
spec's D10, log 17). -/
def execTrapUnknown (vector8 : BitVec 8) (s : State) : Result :=
  match s.cfg.unknownTrapPolicy with
  | .nop => .next s
  | .refuse => .refused (.unknownTrapVector vector8)

/-- TRAP (R93): the routine that the vector selects, else the unknown-vector case. The decoder answers the routine rows
for the eight vectors (R58), so of the words it decodes only those of no routine come here. -/
def execTrap (vector8 : BitVec 8) (s : State) : Result :=
  if vector8 = 0x20 then execTrapGetc s
  else if vector8 = 0x21 then execTrapOut s
  else if vector8 = 0x22 then execTrapPuts s
  else if vector8 = 0x23 then execTrapIn s
  else if vector8 = 0x24 then execTrapPutsp s
  else if vector8 = 0x25 then execTrapHalt s
  else if vector8 = 0x26 then execTrapInu16 s
  else if vector8 = 0x27 then execTrapOutu16 s
  else execTrapUnknown vector8 s

end Sys2Proof.Machine
end

