-- ==== Sys2Proof/Machine/Fetch.lean ====
section
/-! DEFINITION. Fetching an instruction word (70_reset_and_hazards.md R135, phases 1 and 2). -/

namespace Sys2Proof.Machine

/-- `ir <- MemRead(pc, 1); pc <- (pc + 1) mod 65536` (R135; R49: every instruction is one word). -/
def fetch (s : State) : Word × State :=
  let (ir, s1) := memRead s.pc s
  (ir, s1.setPc (s.pc + 1))

/-- The state with an instruction word stored where `fetch` reads. At `KBSR_ADDR` a fetch reads the stored word only
under `KBSR_READ_POLICY = stored` (R33), so there the policy is set to it (DESIGN CHOICE, safe, log 8). -/
def placeWord (ir : Word) (s : State) : State :=
  { memWrite s.pc ir s with
    cfg := if s.pc = s.cfg.kbsrAddr then { s.cfg with kbsrReadPolicy := .stored } else s.cfg }

end Sys2Proof.Machine
end

