-- ==== Sys2Proof/Machine/Step.lean ====
section
/-! DEFINITION. The instruction step (70_reset_and_hazards.md R135, R136). -/

namespace Sys2Proof.Machine

/-- One instruction step (R135): fetch, increment `pc`, decode, execute. It is enabled only when `run = Running`; in any
other run state the core executes nothing, and the step answers the state unchanged (R21, R132, R136; DESIGN CHOICE,
safe, log 7). -/
def step (s : State) : Host.Outcome State Fault Refusal :=
  match s.run with
  | .running => exec (decode (fetch s).1) (fetch s).2
  | .beforeStart | .halted | .fatal _ => .next s

/-- The state in which the very next step fetches and runs the instruction word `w` (of its bits, those from `nbits` up
are zero): the word is stored at `pc` and the machine is started. It stands for the `Load` and the `Start` from
outside the machine (R132, R133; DESIGN CHOICE, safe, log 8). -/
def State.withFetchWord (s : State) (nbits w : Nat) : State :=
  (placeWord (BitVec.ofNat 16 (w % 2 ^ nbits)) s).setRun .running

end Sys2Proof.Machine
end

