-- ==== Sys2Proof/Safety.lean ====
section
/-! DEFINITION. The words that claims are stated in: the invariant, how a run ends, frames, and the spec's arithmetic
on numbers, written apart from the machine's own definitions so that a claim compares the two. -/

namespace Sys2Proof.Safety
open Sys2Proof.Machine

/-! The spec's arithmetic on numbers (00_scope.md R8, R10; 10_state.md R19). -/

/-- `v[hi:lo]`, the unsigned value of bits `hi` down to `lo` (R8). -/
def bits (hi lo : Nat) (v : Word) : Nat := v.toNat / 2 ^ lo % 2 ^ (hi + 1 - lo)

/-- The register index in bits `lo + 2` down to `lo` (R50). -/
def regField (lo : Nat) (v : Word) : RegIdx := BitVec.ofNat 3 (bits (lo + 2) lo v)

/-- A number modulo 65536, as a word (R8, R32). -/
def wrap (n : Nat) : Word := BitVec.ofNat 16 n

/-- `sext_N` on the number of an `N`-bit field (R10). -/
def sextNat (N v : Nat) : Nat := if 2 ^ (N - 1) ≤ v then v + (65536 - 2 ^ N) else v

/-- The flag of a 16-bit value (R19), with the bit values of R18. -/
def flagsOf (n : Nat) : BitVec 3 := if n = 0 then 0b010 else if n < 32768 then 0b001 else 0b100

/-- `cond` holds exactly one of the three flags (R18). -/
def oneFlag (c : BitVec 3) : Prop := c = 0b100 ∨ c = 0b010 ∨ c = 0b001

/-- The value of a list of decimal digits, most significant first (R102, R103). -/
def numeralValue (digits : List Nat) : Nat := digits.foldl (fun n d => 10 * n + d) 0

/-- The character of a decimal digit (R102, R103). -/
def digitChar (d : Nat) : Byte := BitVec.ofNat 8 (0x30 + d)

/-- The blanks that INU16 discards (R102). -/
def blanks : List Byte := [0x20, 0x09, 0x0A, 0x0B, 0x0C, 0x0D]

/-- The unread input begins with these characters (R25 a, R95). -/
def Begins (i : ConsoleInput) (l : List Byte) : Prop := ∀ n, n < l.length → unread i n = l[n]?

/-- `j` is what is left of the unread input `i` after its first `n` characters (R25 a). -/
def Leaves (i : ConsoleInput) (n : Nat) (j : ConsoleInput) : Prop := ∀ m, unread j m = unread i (n + m)

/-- The unread input has ended, or its character `n` is no digit (R102: the longest run of digits ends there). -/
def noDigitAt (i : ConsoleInput) (n : Nat) : Prop := ∀ c ∈ unread i n, c.toNat < 0x30 ∨ 0x39 < c.toNat

/-- Character `n` of the unread input is a blank. -/
def blankAt (i : ConsoleInput) (n : Nat) : Prop := ∃ c ∈ blanks, unread i n = some c

/-- Character `n` of the unread input is a digit. -/
def digitAt (i : ConsoleInput) (n : Nat) : Prop := ∃ d < 10, unread i n = some (digitChar d)

/-- The unread input is blanks, for ever or up to some character, and from there on digits for ever: the default grammar
finds no end of its text (R102). -/
def TextNeverEnds (i : ConsoleInput) : Prop :=
  (∀ n, blankAt i n) ∨ ∃ k, (∀ n, n < k → blankAt i n) ∧ ∀ n, k ≤ n → digitAt i n

/-- The bits of an instruction's word that its layout fixes or leaves out and the decoder does not check (R51, R54). -/
def ignoredBits : Instr → Word
  | .addReg _ _ _ => 0x0018
  | .addImm _ _ _ => 0
  | .andReg _ _ _ => 0x0018
  | .andImm _ _ _ => 0
  | .notReg _ _ => 0x003F
  | .br _ _ => 0
  | .jmp _ => 0x0E3F
  | .jsr _ => 0
  | .jsrr _ => 0x063F
  | .ld _ _ => 0
  | .ldi _ _ => 0
  | .ldr _ _ _ => 0
  | .lea _ _ => 0
  | .st _ _ => 0
  | .sti _ _ => 0
  | .str _ _ _ => 0
  | .rti => 0x0FFF
  | .res => 0x0FFF
  | .trapGetc => 0x0F00
  | .trapOut => 0x0F00
  | .trapPuts => 0x0F00
  | .trapIn => 0x0F00
  | .trapPutsp => 0x0F00
  | .trapHalt => 0x0F00
  | .trapInu16 => 0x0F00
  | .trapOutu16 => 0x0F00
  | .trap _ => 0x0F00

/-! Frames: what stays as it was, read through the machine's own reads. -/

/-- Every general register reads as before. -/
def SameRegs (s t : State) : Prop := ∀ r : RegIdx, t.reg r = s.reg r

/-- Every general register but `d` reads as before. -/
def SameRegsBut (d : RegIdx) (s t : State) : Prop := ∀ r : RegIdx, r ≠ d → t.reg r = s.reg r

/-- Every word of memory reads as before. -/
def SameMemory (s t : State) : Prop := ∀ a : Word, t.word a = s.word a

/-- Every word of memory but the one at `ea` reads as before. -/
def SameMemoryBut (ea : Word) (s t : State) : Prop := ∀ a : Word, a ≠ ea → t.word a = s.word a

/-- The run state and the parameters are as before. -/
def SameControl (s t : State) : Prop := t.run = s.run ∧ t.cfg = s.cfg

/-- The unread console input and the signals sent are as before. -/
def SameConsole (s t : State) : Prop := t.input = s.input ∧ t.signals = s.signals

/-- Only the register `d` and `cond` may differ, and the signals sent. -/
def OnlyDestAndFlags (d : RegIdx) (s t : State) : Prop :=
  SameRegsBut d s t ∧ t.pc = s.pc ∧ SameMemory s t ∧ SameControl s t ∧ t.input = s.input

/-- Only `pc` and the registers of a link may differ: memory, flags, control and console are as before. -/
def KeepsMemoryFlagsConsole (s t : State) : Prop :=
  SameMemory s t ∧ t.cond = s.cond ∧ SameControl s t ∧ SameConsole s t

/-- Only the memory word at `ea` may differ, and the signals sent. -/
def OnlyWordAt (ea : Word) (s t : State) : Prop :=
  SameMemoryBut ea s t ∧ SameRegs s t ∧ t.pc = s.pc ∧ t.cond = s.cond ∧ SameControl s t ∧ t.input = s.input

/-- Only the signals sent may differ. -/
def OnlySignals (s t : State) : Prop :=
  SameRegs s t ∧ t.pc = s.pc ∧ t.cond = s.cond ∧ SameMemory s t ∧ SameControl s t ∧ t.input = s.input

/-- `pc`, `cond`, memory, the run state and the parameters are as before. -/
def KeepsPcFlagsMemory (s t : State) : Prop :=
  t.pc = s.pc ∧ t.cond = s.cond ∧ SameMemory s t ∧ SameControl s t

/-- Only the run state may differ. -/
def OnlyRunState (s t : State) : Prop :=
  SameRegs s t ∧ t.pc = s.pc ∧ t.cond = s.cond ∧ SameMemory s t ∧ SameConsole s t ∧ t.cfg = s.cfg

/-! Runs (10_state.md R21; 70_reset_and_hazards.md R135 to R137). -/

/-- The instruction word of the step that begins in `s`: what the fetch reads (R24, R135). -/
def instrWord (s : State) : Word := s.reads s.pc

/-- The opcode of the step that begins in `s` (R49, R53). -/
def opcode (s : State) : Nat := bits 15 12 (instrWord s)

/-- The trap vector of the step that begins in `s`, if its opcode is TRAP (R57). -/
def vector (s : State) : Nat := bits 7 0 (instrWord s)

/-- The opcodes with an explicit destination register, in bits 11:9 (R15): ADD, AND, NOT, LD, LDI, LDR, LEA. -/
def destOpcodes : List Nat := [0b0001, 0b0101, 0b1001, 0b0010, 0b1010, 0b0110, 0b1110]

/-- The PC-relative address of the step that begins in `s`, with the incremented `pc` and `OFFSET9` (R81). -/
def pcAddress (s : State) : Word :=
  wrap ((s.pc.toNat + 1) % 65536 + sextNat 9 (bits 8 0 (instrWord s)))

/-- The word address that the step that begins in `s` stores to, if it is ST, STI or STR (R42, R81, R87 to R89). -/
def storeAddress (s : State) : Option Word :=
  if opcode s = 0b0011 then some (pcAddress s)
  else if opcode s = 0b1011 then some (s.reads (pcAddress s))
  else if opcode s = 0b0111 then
    some (wrap ((s.reg (regField 6 (instrWord s))).toNat + sextNat 6 (bits 5 0 (instrWord s))))
  else none

/-- The invariant of every state that a run reaches: memory in canonical form; `cond` one flag, or still its reset value
(R18); no fatal kind but the one an instruction raises (R118, R119). -/
structure Inv (s : State) : Prop where
  memory : Memory.wf s.mem
  cond : s.cond = s.cfg.condReset ∨ oneFlag s.cond
  loader : s.run ≠ .fatal .loaderFailure
  dispatch : s.run ≠ .fatal .unreachableDispatch

/-! INU16 where it reads no number (R102, R105). -/

/-- For INU16 the input is at its end: exhausted, or only blanks left under the default grammar. -/
def AtEndForInu16 (s : State) : Prop :=
  unread s.input 0 = none ∨
    s.cfg.parseU16 = .decimal ∧ ∃ n, unread s.input n = none ∧ ∀ m, m < n → blankAt s.input m

/-- INU16 writes `v` to R0 and has consumed `used` characters; nothing else changes. -/
def Inu16Sets (s : State) (v : Word) (used : Nat) : Prop :=
  ∃ t, exec .trapInu16 s = .next t ∧ t.reg 0 = v ∧ Leaves s.input used t.input ∧ SameRegsBut 0 s t ∧
    KeepsPcFlagsMemory s t ∧ t.signals = s.signals

/-- INU16 on bad input of `used` characters: refused, stuck, or answered by the policy's value. -/
def Inu16BadInput (s : State) (used : Nat) : Prop :=
  (s.cfg.inu16BadInputPolicy = .refuse → exec .trapInu16 s = .refused .inu16BadInput) ∧
  (s.cfg.inu16BadInputPolicy = .stuck → exec .trapInu16 s = .fault (.inu16BadInput s.signals)) ∧
  ∀ v : Word, s.cfg.inu16BadInputPolicy = .value v → Inu16Sets s v used

/-- INU16 at the end of the input: stuck, or the policy's value, with nothing left to read. -/
def Inu16AtEnd (s : State) : Prop :=
  (s.cfg.eofPolicy = .stuck → exec .trapInu16 s = .fault (.inputExhausted s.signals)) ∧
  ∀ v : Word, s.cfg.eofPolicy = .value v → ∃ t, exec .trapInu16 s = .next t ∧ t.reg 0 = v ∧
    (∀ m, unread t.input m = none) ∧ SameRegsBut 0 s t ∧ KeepsPcFlagsMemory s t ∧ t.signals = s.signals

end Sys2Proof.Safety
end

