-- ==== Sys2Proof/Certificates/Slice0/Obligations.lean ====
section
/-! DEFINITION. The statements for the provers. Each docstring names the rule of spec/ it formalises; where a clause rests
on a decision of the spec or on a choice of the model, it names the decision and the log entry. -/

open Sys2Proof Sys2Proof.Machine Sys2Proof.Safety

/-! ## Encoding (30_encoding.md) -/

/-- R61: the source's encoded words decode to the instructions it names. -/
def Obligations.SourceWordsDecode : Prop :=
  decode 0b0001010000000001 = .addReg 2 0 1 ∧ decode 0xF026 = .trapInu16 ∧ decode 0x1220 = .addImm 1 0 0 ∧
  decode 0x1240 = .addReg 1 1 0 ∧ decode 0x1060 = .addImm 0 1 0 ∧ decode 0xF027 = .trapOutu16 ∧
  decode 0xF025 = .trapHalt

/-- R50 to R55: decoding the encoding of a well-formed instruction gives it back, with every operand value. -/
def Obligations.DecodeOfEncode : Prop :=
  ∀ i : Instr, i.wellFormed = true → decode (encode i) = i

/-- R51, R54: a word whose ignored bits have the values of the layouts (for JSRR, RTI and RES the zeros that R51 gives them)
is the encoding of what it decodes to. -/
def Obligations.EncodeOfDecode : Prop :=
  ∀ ir : Word,
    (bits 15 12 ir = 0b0001 ∨ bits 15 12 ir = 0b0101 → bits 5 5 ir = 0 → bits 4 3 ir = 0) →
    (bits 15 12 ir = 0b1001 → bits 5 0 ir = 0b111111) →
    (bits 15 12 ir = 0b1100 → bits 11 9 ir = 0 ∧ bits 5 0 ir = 0) →
    (bits 15 12 ir = 0b0100 → bits 11 11 ir = 0 → bits 10 9 ir = 0 ∧ bits 5 0 ir = 0) →
    (bits 15 12 ir = 0b1000 ∨ bits 15 12 ir = 0b1101 → bits 11 0 ir = 0) →
    (bits 15 12 ir = 0b1111 → bits 11 8 ir = 0) →
    encode (decode ir) = ir

/-- R53, R58: every word decodes, to a well-formed instruction of the first row of the opcode table that covers the word. -/
def Obligations.DecodeFollowsOpcodeTable : Prop :=
  ∀ ir : Word, opcodeTable.find? (fun r => r.covers ir) = some (decode ir).row ∧ (decode ir).wellFormed = true

/-- R54 (the spec's decision D5, log 15): changing the bits that the decoder does not check does not change the
instruction. -/
def Obligations.IgnoredBitsDoNotMatter : Prop :=
  ∀ ir x : Word, decode (ir ^^^ (x &&& ignoredBits (decode ir))) = decode ir

/-- R57, R93: with opcode 1111 the low byte selects the routine, and the other 248 vectors select none; bits 11:8 take
no part (the spec's decision D5, log 15). TRAP of a vector does what the selected routine does. -/
def Obligations.TrapVectorSelectsRoutine : Prop :=
  ∀ ir : Word, bits 15 12 ir = 0b1111 →
    (bits 7 0 ir = 0x20 → decode ir = .trapGetc) ∧ (bits 7 0 ir = 0x21 → decode ir = .trapOut) ∧
    (bits 7 0 ir = 0x22 → decode ir = .trapPuts) ∧ (bits 7 0 ir = 0x23 → decode ir = .trapIn) ∧
    (bits 7 0 ir = 0x24 → decode ir = .trapPutsp) ∧ (bits 7 0 ir = 0x25 → decode ir = .trapHalt) ∧
    (bits 7 0 ir = 0x26 → decode ir = .trapInu16) ∧ (bits 7 0 ir = 0x27 → decode ir = .trapOutu16) ∧
    (bits 7 0 ir < 0x20 ∨ 0x27 < bits 7 0 ir → decode ir = .trap (BitVec.ofNat 8 (bits 7 0 ir))) ∧
    ∀ s : State, exec (.trap (BitVec.ofNat 8 (bits 7 0 ir))) s = exec (decode ir) s

/-! ## Shared operations (00_scope.md, 10_state.md, 20_memory.md) -/

/-- R10: for the widths 1 to 15, sign extension is the spec's sum, keeps the two's-complement value, and recovers any 16-bit
value that fits the width from its low bits. -/
def Obligations.SignExtensionIsTwosComplement : Prop :=
  ∀ N : Nat, 1 ≤ N → N ≤ 15 →
    (∀ v : BitVec N, (sext v).toNat = sextNat N v.toNat ∧ (sext v).toInt = v.toInt) ∧
    ∀ w : Word, -(2 ^ (N - 1) : Int) ≤ w.toInt → w.toInt < 2 ^ (N - 1) → sext (w.setWidth N) = w

/-- R19: `setcc(v)` sets exactly one flag, by the value alone, and changes nothing else. The bit values that R19 writes are the
spec's D4 (log 18). -/
def Obligations.SetccSetsTheFlagOfTheValue : Prop :=
  ∀ (v : Word) (s : State),
    ((setcc v s).cond = 0b010 ↔ v.toNat = 0) ∧
    ((setcc v s).cond = 0b100 ↔ bits 15 15 v = 1) ∧
    ((setcc v s).cond = 0b001 ↔ v.toNat ≠ 0 ∧ bits 15 15 v = 0) ∧
    SameRegs s (setcc v s) ∧ (setcc v s).pc = s.pc ∧ SameMemory s (setcc v s) ∧ SameControl s (setcc v s) ∧
    SameConsole s (setcc v s)

/-- R31, R33, R34, R36, R37 (what a read of `KBSR_ADDR` does is the spec's decisions D11 and D12, log 21): `MemRead` answers
the stored word, or the sentinel at `KBSR_ADDR` under that policy, signals `Poll()` there and nowhere else, and changes
nothing else; after `MemWrite` of `v` the word stored is `v`, at `KBSR_ADDR` too, and every other word reads as before. -/
def Obligations.MemoryReadsAndWrites : Prop :=
  ∀ (a v : Word) (s : State), Memory.wf s.mem →
    (a ≠ s.cfg.kbsrAddr → memRead a s = (s.word a, s)) ∧
    (a = s.cfg.kbsrAddr → (memRead a s).1 = (match s.cfg.kbsrReadPolicy with
      | .stored => s.word a
      | .sentinel => s.cfg.kbsrNoKey)) ∧
    (a = s.cfg.kbsrAddr → (memRead a s).2.polls = s.polls + 1 ∧ (memRead a s).2.output = s.output ∧
      OnlySignals s (memRead a s).2) ∧
    (memWrite a v s).word a = v ∧ OnlyWordAt a s (memWrite a v s) ∧ (memWrite a v s).signals = s.signals

/-! ## Arithmetic and logic (40_alu.md): every statement gives the selecting bits, the operands, the result, the flag and
the frame, and that the instruction completes. -/

/-- R65, R66, R67. That bits 4:3 are ignored is the spec's decision D5 (log 15). -/
def Obligations.AddRegisterMode : Prop :=
  (∀ ir : Word, bits 15 12 ir = 0b0001 → bits 5 5 ir = 0 →
    decode ir = .addReg (regField 9 ir) (regField 6 ir) (regField 0 ir)) ∧
  ∀ (dr sr1 sr2 : RegIdx) (s : State), ∃ t, exec (.addReg dr sr1 sr2) s = .next t ∧
    (t.reg dr).toNat = ((s.reg sr1).toNat + (s.reg sr2).toNat) % 65536 ∧
    t.cond = flagsOf (t.reg dr).toNat ∧ OnlyDestAndFlags dr s t ∧ t.signals = s.signals

/-- R68. -/
def Obligations.AddImmediateMode : Prop :=
  (∀ ir : Word, bits 15 12 ir = 0b0001 → bits 5 5 ir = 1 →
    decode ir = .addImm (regField 9 ir) (regField 6 ir) (BitVec.ofNat 5 (bits 4 0 ir))) ∧
  ∀ (dr sr1 : RegIdx) (imm5 : BitVec 5) (s : State), ∃ t, exec (.addImm dr sr1 imm5) s = .next t ∧
    (t.reg dr).toNat = ((s.reg sr1).toNat + sextNat 5 imm5.toNat) % 65536 ∧
    t.cond = flagsOf (t.reg dr).toNat ∧ OnlyDestAndFlags dr s t ∧ t.signals = s.signals

/-- R69. That bits 4:3 are ignored is the spec's decision D5 (log 15). -/
def Obligations.AndRegisterMode : Prop :=
  (∀ ir : Word, bits 15 12 ir = 0b0101 → bits 5 5 ir = 0 →
    decode ir = .andReg (regField 9 ir) (regField 6 ir) (regField 0 ir)) ∧
  ∀ (dr sr1 sr2 : RegIdx) (s : State), ∃ t, exec (.andReg dr sr1 sr2) s = .next t ∧
    (∀ k, k < 16 → bits k k (t.reg dr) = bits k k (s.reg sr1) * bits k k (s.reg sr2)) ∧
    t.cond = flagsOf (t.reg dr).toNat ∧ OnlyDestAndFlags dr s t ∧ t.signals = s.signals

/-- R70: the immediate is sign-extended before the AND. -/
def Obligations.AndImmediateMode : Prop :=
  (∀ ir : Word, bits 15 12 ir = 0b0101 → bits 5 5 ir = 1 →
    decode ir = .andImm (regField 9 ir) (regField 6 ir) (BitVec.ofNat 5 (bits 4 0 ir))) ∧
  ∀ (dr sr1 : RegIdx) (imm5 : BitVec 5) (s : State), ∃ t, exec (.andImm dr sr1 imm5) s = .next t ∧
    (∀ k, k < 16 → bits k k (t.reg dr) = bits k k (s.reg sr1) * bits k k (wrap (sextNat 5 imm5.toNat))) ∧
    t.cond = flagsOf (t.reg dr).toNat ∧ OnlyDestAndFlags dr s t ∧ t.signals = s.signals

/-- R71. That bits 5:0 are ignored is the spec's decision D5 (log 15). -/
def Obligations.NotComplements : Prop :=
  (∀ ir : Word, bits 15 12 ir = 0b1001 → decode ir = .notReg (regField 9 ir) (regField 6 ir)) ∧
  ∀ (dr sr1 : RegIdx) (s : State), ∃ t, exec (.notReg dr sr1) s = .next t ∧
    (t.reg dr).toNat = 65535 - (s.reg sr1).toNat ∧
    t.cond = flagsOf (t.reg dr).toNat ∧ OnlyDestAndFlags dr s t ∧ t.signals = s.signals

/-! ## Control transfer (41_control.md); `pc` is the incremented value -/

/-- R74: taken or not, BR completes, and writes nothing but `pc`. The bit values of `cond` that R74 writes are the spec's D4
(log 18). -/
def Obligations.BranchOnCondition : Prop :=
  (∀ ir : Word, bits 15 12 ir = 0b0000 → decode ir = .br (regField 9 ir) (BitVec.ofNat 9 (bits 8 0 ir))) ∧
  ∀ (nzp : BitVec 3) (offset9 : BitVec 9) (s : State), ∃ t, exec (.br nzp offset9) s = .next t ∧
    (nzp &&& s.cond ≠ 0 → t.pc.toNat = (s.pc.toNat + sextNat 9 offset9.toNat) % 65536) ∧
    (nzp &&& s.cond = 0 → t.pc = s.pc) ∧ SameRegs s t ∧ KeepsMemoryFlagsConsole s t

/-- R75. That bits 11:9 and 5:0 are ignored is the spec's decision D5 (log 15). -/
def Obligations.JumpToRegister : Prop :=
  (∀ ir : Word, bits 15 12 ir = 0b1100 → decode ir = .jmp (regField 6 ir)) ∧
  ∀ (baseR : RegIdx) (s : State), ∃ t, exec (.jmp baseR) s = .next t ∧
    t.pc = s.reg baseR ∧ SameRegs s t ∧ KeepsMemoryFlagsConsole s t

/-- R76: the incremented `pc` goes to R7, without `setcc`. -/
def Obligations.JumpToSubroutine : Prop :=
  (∀ ir : Word, bits 15 12 ir = 0b0100 → bits 11 11 ir = 1 → decode ir = .jsr (BitVec.ofNat 11 (bits 10 0 ir))) ∧
  ∀ (offset11 : BitVec 11) (s : State), ∃ t, exec (.jsr offset11) s = .next t ∧
    t.reg 7 = s.pc ∧ t.pc.toNat = (s.pc.toNat + sextNat 11 offset11.toNat) % 65536 ∧
    SameRegsBut 7 s t ∧ KeepsMemoryFlagsConsole s t

/-- R77: the three modes of JSRR. The default mode, that R7 is written before the base is read, and the register's place in
bits 8:6 are the spec's decisions D6, D7 and D8 (log 16); `t.reg baseR` is the base read after the write of R7. -/
def Obligations.JumpToSubroutineRegister : Prop :=
  (∀ ir : Word, bits 15 12 ir = 0b0100 → bits 11 11 ir = 0 → decode ir = .jsrr (regField 6 ir)) ∧
  ∀ (baseR : RegIdx) (s : State), ∃ t, exec (.jsrr baseR) s = .next t ∧ t.reg 7 = s.pc ∧
    (s.cfg.jsrrMode = .jumpContents → t.pc = t.reg baseR) ∧
    (s.cfg.jsrrMode = .addContents → t.pc.toNat = (s.pc.toNat + (t.reg baseR).toNat) % 65536) ∧
    (s.cfg.jsrrMode = .addIndex → t.pc.toNat = (s.pc.toNat + baseR.toNat) % 65536) ∧
    SameRegsBut 7 s t ∧ KeepsMemoryFlagsConsole s t

/-! ## Loads, LEA and stores (42_load_store.md) -/

/-- R83. -/
def Obligations.LoadPcRelative : Prop :=
  (∀ ir : Word, bits 15 12 ir = 0b0010 → decode ir = .ld (regField 9 ir) (BitVec.ofNat 9 (bits 8 0 ir))) ∧
  ∀ (dr : RegIdx) (offset9 : BitVec 9) (s : State),
    let ea := wrap (s.pc.toNat + sextNat 9 offset9.toNat)
    ∃ t, exec (.ld dr offset9) s = .next t ∧ t.reg dr = s.reads ea ∧ t.cond = flagsOf (s.reads ea).toNat ∧
      OnlyDestAndFlags dr s t ∧ t.signals = s.signals ++ s.readSignals ea

/-- R84: two chained reads, the pointer's first; the flag is the operand's, not the pointer's. -/
def Obligations.LoadIndirect : Prop :=
  (∀ ir : Word, bits 15 12 ir = 0b1010 → decode ir = .ldi (regField 9 ir) (BitVec.ofNat 9 (bits 8 0 ir))) ∧
  ∀ (dr : RegIdx) (offset9 : BitVec 9) (s : State),
    let ea := wrap (s.pc.toNat + sextNat 9 offset9.toNat)
    let p := s.reads ea
    ∃ t, exec (.ldi dr offset9) s = .next t ∧ t.reg dr = s.reads p ∧ t.cond = flagsOf (s.reads p).toNat ∧
      OnlyDestAndFlags dr s t ∧ t.signals = s.signals ++ s.readSignals ea ++ s.readSignals p

/-- R85: the base is read before DR is written. -/
def Obligations.LoadBaseOffset : Prop :=
  (∀ ir : Word, bits 15 12 ir = 0b0110 →
    decode ir = .ldr (regField 9 ir) (regField 6 ir) (BitVec.ofNat 6 (bits 5 0 ir))) ∧
  ∀ (dr baseR : RegIdx) (offset6 : BitVec 6) (s : State),
    let ea := wrap ((s.reg baseR).toNat + sextNat 6 offset6.toNat)
    ∃ t, exec (.ldr dr baseR offset6) s = .next t ∧ t.reg dr = s.reads ea ∧ t.cond = flagsOf (s.reads ea).toNat ∧
      OnlyDestAndFlags dr s t ∧ t.signals = s.signals ++ s.readSignals ea

/-- R86: the address itself, with no access at it (no signal); it writes `cond`. -/
def Obligations.LoadEffectiveAddress : Prop :=
  (∀ ir : Word, bits 15 12 ir = 0b1110 → decode ir = .lea (regField 9 ir) (BitVec.ofNat 9 (bits 8 0 ir))) ∧
  ∀ (dr : RegIdx) (offset9 : BitVec 9) (s : State), ∃ t, exec (.lea dr offset9) s = .next t ∧
    (t.reg dr).toNat = (s.pc.toNat + sextNat 9 offset9.toNat) % 65536 ∧ t.cond = flagsOf (t.reg dr).toNat ∧
    OnlyDestAndFlags dr s t ∧ t.signals = s.signals

/-- R87. -/
def Obligations.StorePcRelative : Prop :=
  (∀ ir : Word, bits 15 12 ir = 0b0011 → decode ir = .st (regField 9 ir) (BitVec.ofNat 9 (bits 8 0 ir))) ∧
  ∀ (sr : RegIdx) (offset9 : BitVec 9) (s : State), Memory.wf s.mem →
    let ea := wrap (s.pc.toNat + sextNat 9 offset9.toNat)
    ∃ t, exec (.st sr offset9) s = .next t ∧ t.word ea = s.reg sr ∧ OnlyWordAt ea s t ∧ t.signals = s.signals

/-- R88: one read for the address, then one write. -/
def Obligations.StoreIndirect : Prop :=
  (∀ ir : Word, bits 15 12 ir = 0b1011 → decode ir = .sti (regField 9 ir) (BitVec.ofNat 9 (bits 8 0 ir))) ∧
  ∀ (sr : RegIdx) (offset9 : BitVec 9) (s : State), Memory.wf s.mem →
    let ea := wrap (s.pc.toNat + sextNat 9 offset9.toNat)
    let p := s.reads ea
    ∃ t, exec (.sti sr offset9) s = .next t ∧ t.word p = s.reg sr ∧ OnlyWordAt p s t ∧
      t.signals = s.signals ++ s.readSignals ea

/-- R89. -/
def Obligations.StoreBaseOffset : Prop :=
  (∀ ir : Word, bits 15 12 ir = 0b0111 →
    decode ir = .str (regField 9 ir) (regField 6 ir) (BitVec.ofNat 6 (bits 5 0 ir))) ∧
  ∀ (sr baseR : RegIdx) (offset6 : BitVec 6) (s : State), Memory.wf s.mem →
    let ea := wrap ((s.reg baseR).toNat + sextNat 6 offset6.toNat)
    ∃ t, exec (.str sr baseR offset6) s = .next t ∧ t.word ea = s.reg sr ∧ OnlyWordAt ea s t ∧
      t.signals = s.signals

/-! ## Reserved opcodes (44_reserved.md) -/

/-- R111, R112: RTI and RES take the fatal condition and change nothing but the run state. That bits 11:0 are ignored is the
spec's decision D5 (log 15), what a fatal condition leaves is its decision D19 (log 20). -/
def Obligations.ReservedOpcodesTakeTheFatalCondition : Prop :=
  (∀ ir : Word, bits 15 12 ir = 0b1000 → decode ir = .rti) ∧
  (∀ ir : Word, bits 15 12 ir = 0b1101 → decode ir = .res) ∧
  ∀ s : State,
    (∃ t, exec .rti s = .next t ∧ t.run = .fatal .unimplementedOpcode ∧ OnlyRunState s t) ∧
    ∃ t, exec .res s = .next t ∧ t.run = .fatal .unimplementedOpcode ∧ OnlyRunState s t

/-! ## Trap routines (43_trap.md) -/

/-- R96, with the character zero-extended (the spec's D13) and no flags (D27), log 19. -/
def Obligations.GetcReadsOneCharacter : Prop :=
  decode 0xF020 = .trapGetc ∧
  ∀ (s : State) (c : Byte), unread s.input 0 = some c → ∃ t, exec .trapGetc s = .next t ∧
    (t.reg 0).toNat = c.toNat ∧ Leaves s.input 1 t.input ∧ SameRegsBut 0 s t ∧ KeepsPcFlagsMemory s t ∧ t.signals = s.signals

/-- R97: bits 7:0 of R0 are written, and nothing else changes. -/
def Obligations.OutWritesTheLowByte : Prop :=
  decode 0xF021 = .trapOut ∧
  ∀ s : State, ∃ t, exec .trapOut s = .next t ∧
    t.signals = s.signals ++ [.conOut (BitVec.ofNat 8 (bits 7 0 (s.reg 0)))] ∧
    t.output = s.output ++ [BitVec.ofNat 8 (bits 7 0 (s.reg 0))] ∧ OnlySignals s t

/-- R98 (the low byte of each word: the spec's D17, log 19): with the first zero word at distance `k`, PUTS writes bits 7:0
of the `k` words before it, in order, reading each word once, and changes nothing else. -/
def Obligations.PutsWritesTheString : Prop :=
  ∀ (s : State) (k : Nat), k < 65536 →
    (∀ i, i < k → s.reads (wrap ((s.reg 0).toNat + i)) ≠ 0) → s.reads (wrap ((s.reg 0).toNat + k)) = 0 →
    ∃ t, exec .trapPuts s = .next t ∧ OnlySignals s t ∧
      t.signals = s.signals ++ (List.range k).flatMap (fun i =>
          s.readSignals (wrap ((s.reg 0).toNat + i)) ++
          [.conOut (BitVec.ofNat 8 (bits 7 0 (s.reads (wrap ((s.reg 0).toNat + i)))))]) ++
        s.readSignals (wrap ((s.reg 0).toNat + k)) ∧
      t.output = s.output ++ (List.range k).map (fun i =>
        BitVec.ofNat 8 (bits 7 0 (s.reads (wrap ((s.reg 0).toNat + i)))))

/-- R99 (no prompt: the spec's D18; zero extension: D13; log 19): one character is read and echoed, R0 and `cond` are
written. -/
def Obligations.InReadsAndEchoes : Prop :=
  decode 0xF023 = .trapIn ∧
  ∀ (s : State) (c : Byte), unread s.input 0 = some c → ∃ t, exec .trapIn s = .next t ∧
    (t.reg 0).toNat = c.toNat ∧ t.cond = flagsOf c.toNat ∧ t.cond ≠ 0b100 ∧ Leaves s.input 1 t.input ∧
    t.signals = s.signals ++ [.conOut c] ∧ SameRegsBut 0 s t ∧ t.pc = s.pc ∧ SameMemory s t ∧ SameControl s t

/-- R100 (the zero low byte is written: the spec's D17, log 19): each word before the first zero word writes its low byte,
then its high byte if nonzero. -/
def Obligations.PutspWritesThePackedString : Prop :=
  ∀ (s : State) (k : Nat), k < 65536 →
    (∀ i, i < k → s.reads (wrap ((s.reg 0).toNat + i)) ≠ 0) → s.reads (wrap ((s.reg 0).toNat + k)) = 0 →
    ∃ t, exec .trapPutsp s = .next t ∧ OnlySignals s t ∧
      t.signals = s.signals ++ (List.range k).flatMap (fun i =>
          let w := s.reads (wrap ((s.reg 0).toNat + i))
          s.readSignals (wrap ((s.reg 0).toNat + i)) ++ Signal.conOut (BitVec.ofNat 8 (bits 7 0 w)) ::
            (if bits 15 8 w = 0 then [] else [.conOut (BitVec.ofNat 8 (bits 15 8 w))])) ++
        s.readSignals (wrap ((s.reg 0).toNat + k)) ∧
      t.output = s.output ++ (List.range k).flatMap (fun i =>
        let w := s.reads (wrap ((s.reg 0).toNat + i))
        BitVec.ofNat 8 (bits 7 0 w) :: (if bits 15 8 w = 0 then [] else [BitVec.ofNat 8 (bits 15 8 w)]))

/-- R98, R100, R141 c (U9): PUTS and PUTSP stop as endless exactly when no word of memory reads as zero. The named stop for a
step that never completes is the model's choice (log 10). -/
def Obligations.EndlessStringsExactlyWithoutZeroWord : Prop :=
  ∀ s : State,
    ((∃ turn, exec .trapPuts s = .fault (.stringNeverEnds s.signals turn)) ↔ ∀ a : Word, s.reads a ≠ 0) ∧
    ((∃ turn, exec .trapPutsp s = .fault (.stringNeverEnds s.signals turn)) ↔ ∀ a : Word, s.reads a ≠ 0)

/-- R101 (no message: the spec's D18, log 19): HALT changes the run state alone. -/
def Obligations.HaltStopsTheRun : Prop :=
  decode 0xF025 = .trapHalt ∧
  ∀ s : State, ∃ t, exec .trapHalt s = .next t ∧ t.run = .halted ∧ OnlyRunState s t

/-- R102 (the default grammar: the spec's D15, log 13; no echo, no flags: D18, D27, log 19): blanks, then the longest run of
digits, with a value of at most 65535, whatever follows and however the input ends or goes on. -/
def Obligations.Inu16ReadsANumber : Prop :=
  decode 0xF026 = .trapInu16 ∧
  ∀ (s : State) (lead : List Byte) (digits : List Nat), s.cfg.parseU16 = .decimal →
    (∀ c ∈ lead, c ∈ blanks) → digits ≠ [] → (∀ d ∈ digits, d < 10) → numeralValue digits ≤ 65535 →
    Begins s.input (lead ++ digits.map digitChar) → noDigitAt s.input (lead.length + digits.length) →
    Inu16Sets s (wrap (numeralValue digits)) (lead.length + digits.length)

/-- R102 (the default grammar and the policy: the spec's D15, log 13, log 14): after the blanks, text that does not begin with
a digit, or a value above 65535, is bad input: refused, stuck or answered by the policy's value. The named stop under
`stuck`, for a step that never completes, is the model's choice (log 10); that the policy's value leaves unread what
follows the digits is the model's inference (log 12). -/
def Obligations.Inu16BadInputFollowsThePolicy : Prop :=
  ∀ (s : State) (lead : List Byte) (digits : List Nat), s.cfg.parseU16 = .decimal →
    (∀ c ∈ lead, c ∈ blanks) → (∀ d ∈ digits, d < 10) →
    Begins s.input (lead ++ digits.map digitChar) → noDigitAt s.input (lead.length + digits.length) →
    (65535 < numeralValue digits ∨ (digits = [] ∧ ∃ c ∈ unread s.input lead.length, c ∉ blanks)) →
    Inu16BadInput s (lead.length + digits.length)

/-- R105 (the spec's D14, log 14): at the end of the console input GETC, IN and INU16 never complete under `stuck` (the named
stop is the model's choice, log 10); under `value(v)` they set R0 to `v`, and IN alone applies `setcc(v)`. For INU16 the
input is also at its end when only blanks are left under the default grammar (D15, log 13); that they are consumed is the
model's inference (log 12). -/
def Obligations.EndOfInputFollowsThePolicy : Prop :=
  ∀ s : State,
    (unread s.input 0 = none → s.cfg.eofPolicy = .stuck →
      exec .trapGetc s = .fault (.inputExhausted s.signals) ∧
      exec .trapIn s = .fault (.inputExhausted s.signals)) ∧
    (∀ v : Word, unread s.input 0 = none → s.cfg.eofPolicy = .value v → ∃ t, exec .trapGetc s = .next t ∧
      t.reg 0 = v ∧ SameRegsBut 0 s t ∧ KeepsPcFlagsMemory s t ∧ SameConsole s t) ∧
    (∀ v : Word, unread s.input 0 = none → s.cfg.eofPolicy = .value v → ∃ t, exec .trapIn s = .next t ∧
      t.reg 0 = v ∧ t.cond = flagsOf v.toNat ∧ OnlyDestAndFlags 0 s t ∧ SameConsole s t) ∧
    (AtEndForInu16 s → Inu16AtEnd s)

/-- R103 (the format: the spec's D16, log 19): the decimal numeral of R0, no leading zero, one to five characters, and nothing
else changes. -/
def Obligations.Outu16WritesTheNumeral : Prop :=
  decode 0xF027 = .trapOutu16 ∧
  ∀ s : State, ∃ (t : State) (digits : List Nat), exec .trapOutu16 s = .next t ∧
    (∀ d ∈ digits, d < 10) ∧ numeralValue digits = (s.reg 0).toNat ∧
    1 ≤ digits.length ∧ digits.length ≤ 5 ∧ (digits.head? = some 0 → digits = [0]) ∧
    t.signals = s.signals ++ digits.map (fun d => Signal.conOut (digitChar d)) ∧ OnlySignals s t

/-- R102, R103 (the default grammar: the spec's D15, log 13; the format: its D16, log 19): INU16 reads back, from blanks, the
text that OUTU16 writes and anything that does not begin with a digit, the number that OUTU16 wrote, and leaves what
follows unread. -/
def Obligations.Inu16InvertsOutu16 : Prop :=
  ∀ (s u : State) (text lead : List Byte), exec .trapOutu16 s = .next u → u.output = s.output ++ text →
    (∀ c ∈ lead, c ∈ blanks) →
    ∀ w : State, w.cfg.parseU16 = .decimal → Begins w.input (lead ++ text) →
      noDigitAt w.input (lead.length + text.length) →
      Inu16Sets w (s.reg 0) (lead.length + text.length)

/-- R104 (the spec's D10, log 17): TRAP with a vector of no routine does nothing at all under `nop` (R7 is not written), and
is refused under `refuse`. -/
def Obligations.UnknownTrapVectorFollowsThePolicy : Prop :=
  ∀ (vector8 : BitVec 8) (s : State), vector8.toNat < 0x20 ∨ 0x27 < vector8.toNat →
    (s.cfg.unknownTrapPolicy = .nop → exec (.trap vector8) s = .next s) ∧
    (s.cfg.unknownTrapPolicy = .refuse → exec (.trap vector8) s = .refused (.unknownTrapVector vector8))

/-! ## Reset, start and the step (70_reset_and_hazards.md) -/

/-- R131: `Reset`, from any state, `Halted` and `Fatal` too, puts every piece of state at its reset value of R26 (the run
state is `Running` only once `Start` is given); the defaults that it states for two parameters are those of `State.reset`
(the spec's D2 and D3, log 2). -/
def Obligations.ResetValues : Prop :=
  (∀ s : State, (∀ r : RegIdx, s.portReset.reg r = 0) ∧ s.portReset.pc = s.cfg.pcStart ∧
    s.portReset.run ≠ .running ∧ (∃ u, s.portReset.portStart = some u ∧ u.run = .running) ∧
    s.portReset.cond = s.cfg.condReset ∧ (∀ a : Word, s.portReset.word a = 0) ∧ s.portReset.output = [] ∧
    s.portReset.input = s.cfg.consoleInput) ∧
  (∀ r : RegIdx, State.reset.reg r = 0) ∧ State.reset.pc = 0x3000 ∧ State.reset.run ≠ .running ∧
  State.reset.cond = 0b000 ∧ (∀ a : Word, State.reset.word a = 0) ∧ State.reset.output = [] ∧
  State.reset.input = State.reset.cfg.consoleInput

/-- R132, R133, R137 (the ports are the spec's D1, an oversize image its D21; log 6, log 8): after `Reset`, the load of an
image at `PC_START` and `Start`, memory holds the image and zeros elsewhere, and the core is running at `PC_START`. -/
def Obligations.LaunchLoadsTheImage : Prop :=
  ∀ (p : Params) (image : List Word),
    (65536 < p.pcStart.toNat + image.length → launch p image = none) ∧
    (p.pcStart.toNat + image.length ≤ 65536 → ∃ s, launch p image = some s ∧ s.run = .running ∧
      s.pc = p.pcStart ∧ s.cond = p.condReset ∧ (∀ r : RegIdx, s.reg r = 0) ∧ s.cfg = p ∧
      (∀ (i : Nat) (h : i < image.length), s.word (wrap (p.pcStart.toNat + i)) = image[i]) ∧
      (∀ a : Word, a.toNat < p.pcStart.toNat ∨ p.pcStart.toNat + image.length ≤ a.toNat → s.word a = 0) ∧
      s.input = p.consoleInput ∧ s.signals = [])

/-- R135: the step of a running core fetches the word at `pc` (with the read's signal), increments `pc` modulo 65536,
and executes the instruction that the word decodes to. -/
def Obligations.StepRunsTheDecodedInstruction : Prop :=
  ∀ s : State, s.run = .running →
    ∃ u, step s = exec (decode (instrWord s)) u ∧ u.pc.toNat = (s.pc.toNat + 1) % 65536 ∧ SameRegs s u ∧
      u.cond = s.cond ∧ u.mem = s.mem ∧ SameControl s u ∧ u.input = s.input ∧
      u.signals = s.signals ++ s.readSignals s.pc

/-- The model's choice, log 8: the state the host builds for one word runs exactly the instruction of that word. -/
def Obligations.PlacedWordIsTheNextInstruction : Prop :=
  ∀ (s : State) (ir : Word), Memory.wf s.mem →
    instrWord (s.withFetchWord 16 ir.toNat) = ir ∧ (s.withFetchWord 16 ir.toNat).run = .running ∧
    SameRegs s (s.withFetchWord 16 ir.toNat) ∧ (s.withFetchWord 16 ir.toNat).pc = s.pc ∧
    (s.withFetchWord 16 ir.toNat).cond = s.cond ∧ SameConsole s (s.withFetchWord 16 ir.toNat) ∧
    SameMemoryBut s.pc s (s.withFetchWord 16 ir.toNat)

/-- R21, R116, R136 (the spec's D19 and D20): a core that is not running stays as it is, however many steps are taken. That a
step is then answered by the same state is the model's choice (log 7). -/
def Obligations.NoStepOutsideRunning : Prop :=
  ∀ (k : Nat) (s : State), s.run ≠ .running → core.run k s = .next s

/-! ## Rules of the whole machine -/

/-- The invariant holds after `Reset` at any parameters, and at the start of every run. -/
def Obligations.InvariantAtStart : Prop :=
  (∀ p : Params, Inv (State.resetTo p)) ∧ Inv State.reset ∧
  ∀ (p : Params) (image : List Word) (s : State), launch p image = some s → Inv s

/-- R18, R23, R118, R119: every step keeps the invariant: memory canonical and within 65536 words, `cond` one flag or its
reset value, no fatal kind that no instruction raises. -/
def Obligations.EveryStepKeepsTheInvariant : Prop :=
  ∀ s t : State, Inv s → step s = .next t → Inv t

/-- R21 (the spec's D19 and D20): a step leaves the run state, or halts it by TRAP x25, or ends it in
`Fatal(UnimplementedOpcode)` by opcode 1000 or 1101; nothing leaves `Halted` or `Fatal`. -/
def Obligations.RunStateTransitions : Prop :=
  ∀ s t : State, step s = .next t →
    (t.run = s.run ∨
      (s.run = .running ∧ t.run = .halted ∧ opcode s = 0b1111 ∧ vector s = 0x25) ∨
      (s.run = .running ∧ t.run = .fatal .unimplementedOpcode ∧ (opcode s = 0b1000 ∨ opcode s = 0b1101))) ∧
    (s.run = .running → opcode s = 0b1111 ∧ vector s = 0x25 → t.run = .halted)

/-- R117: the step of a running core raises `Fatal(UnimplementedOpcode)` when the fetched word has `ir[15:12]` 1000 or 1101;
the instruction has then had no effect other than the increment of `pc` (and the fetch's signal), the word is at `pc - 1`;
no other word raises a fatal condition. -/
def Obligations.FatalExactlyOnReservedOpcodes : Prop :=
  ∀ s : State, s.run = .running →
    (opcode s = 0b1000 ∨ opcode s = 0b1101 → ∃ t, step s = .next t ∧ t.run = .fatal .unimplementedOpcode ∧
      t.pc.toNat = (s.pc.toNat + 1) % 65536 ∧ SameRegs s t ∧ t.cond = s.cond ∧ SameMemory s t ∧
      t.input = s.input ∧ t.cfg = s.cfg ∧ t.signals = s.signals ++ s.readSignals s.pc ∧
      t.reads (t.pc - 1) = instrWord s) ∧
    ∀ (t : State) (k : FatalKind), step s = .next t → t.run = .fatal k → opcode s = 0b1000 ∨ opcode s = 0b1101

/-- R15, R20 (the spec's D27, log 19): `cond` is written by ADD, AND, NOT, LD, LDI, LDR and LEA, from the register in bits
11:9, and by TRAP x23, from R0; it is one flag then; no other instruction changes it. -/
def Obligations.WritersOfCond : Prop :=
  ∀ s t : State, s.run = .running → step s = .next t →
    (opcode s ∈ destOpcodes → t.cond = flagsOf (t.reg (regField 9 (instrWord s))).toNat ∧ oneFlag t.cond) ∧
    (opcode s = 0b1111 ∧ vector s = 0x23 → t.cond = flagsOf (t.reg 0).toNat ∧ oneFlag t.cond) ∧
    (opcode s ∉ destOpcodes → ¬(opcode s = 0b1111 ∧ vector s = 0x23) → t.cond = s.cond)

/-- R14, R15, R94 (TRAP does not write R7: the spec's D9, log 17): a step changes at most the register in bits 11:9, by an
instruction with a destination field, or R7 by JSR and JSRR, or R0 by GETC, IN and INU16. -/
def Obligations.WritersOfRegisters : Prop :=
  ∀ (s t : State) (r : RegIdx), s.run = .running → step s = .next t → t.reg r ≠ s.reg r →
    (opcode s ∈ destOpcodes ∧ r = regField 9 (instrWord s)) ∨ (opcode s = 0b0100 ∧ r = 7) ∨
    (opcode s = 0b1111 ∧ vector s ∈ [0x20, 0x23, 0x26] ∧ r = 0)

/-- R35, R42, R82: a step changes memory only by ST, STI and STR, and only at the address the instruction stores to; the
word there is then the register in bits 11:9. -/
def Obligations.WritersOfMemory : Prop :=
  ∀ s t : State, s.run = .running → Memory.wf s.mem → step s = .next t →
    (∀ a : Word, t.word a ≠ s.word a → storeAddress s = some a) ∧
    ∀ a : Word, storeAddress s = some a → t.word a = s.reg (regField 9 (instrWord s))

/-- R45 (the spec's D22, log 22): a word stored at the address of the next instruction is what the next step fetches. -/
def Obligations.StoredWordIsFetchedNext : Prop :=
  ∀ s t : State, s.run = .running → Memory.wf s.mem → step s = .next t → storeAddress s = some t.pc →
    t.pc ≠ t.cfg.kbsrAddr → t.run = .running ∧ instrWord t = s.reg (regField 9 (instrWord s)) ∧
    ∃ u, step t = exec (decode (s.reg (regField 9 (instrWord s)))) u ∧ u.pc = t.pc + 1

/-- R16, R17: every step leaves the incremented `pc`, but for BR taken, JSR, JSRR and JMP. -/
def Obligations.WritersOfPc : Prop :=
  ∀ s t : State, s.run = .running → step s = .next t →
    (opcode s ≠ 0b0000 → opcode s ≠ 0b0100 → opcode s ≠ 0b1100 → t.pc.toNat = (s.pc.toNat + 1) % 65536) ∧
    (opcode s = 0b0000 → regField 9 (instrWord s) &&& s.cond = 0 → t.pc.toNat = (s.pc.toNat + 1) % 65536) ∧
    (opcode s = 0b0000 → regField 9 (instrWord s) &&& s.cond ≠ 0 → t.pc = pcAddress s) ∧
    (opcode s = 0b1100 → t.pc = s.reg (regField 6 (instrWord s)))

/-- R6, R25, R138 (the spec's D13; the one order of signals is the model's choice, log 11): signals are only appended, input
is only consumed from the front, the parameters never change, and only TRAP reads or writes the console. -/
def Obligations.ConsoleIsAppendedAndConsumed : Prop :=
  ∀ s t : State, step s = .next t →
    s.signals <+: t.signals ∧ s.output <+: t.output ∧ (∃ k, Leaves s.input k t.input) ∧ t.cfg = s.cfg ∧
    (opcode s ≠ 0b1111 → t.output = s.output ∧ t.input = s.input) ∧
    (opcode s = 0b1111 → vector s ∉ [0x20, 0x23, 0x26] → t.input = s.input) ∧
    (opcode s = 0b1111 → vector s ∉ [0x21, 0x22, 0x23, 0x24, 0x27] → t.output = s.output)

/-- R31, R115, R125: every instruction but TRAP completes its step in every state; TRAP fails to only by waiting for input,
by a text or a string without end, or by a parameter that refuses. The named stops are the model's choice (log 10); where
the default grammar finds no end is the spec's D15 (log 13). -/
def Obligations.StepStopsOnlyInTrap : Prop :=
  ∀ s : State,
    (opcode s ≠ 0b1111 → ∃ t, step s = .next t) ∧
    (∀ f : Fault, step s = .fault f → s.run = .running ∧ opcode s = 0b1111 ∧
      (f = .inputExhausted (s.signals ++ s.readSignals s.pc) ∧ s.cfg.eofPolicy = .stuck ∧
          (vector s ∈ [0x20, 0x23] ∧ unread s.input 0 = none ∨
            vector s = 0x26 ∧ (∃ n, unread s.input n = none) ∧ (s.cfg.parseU16 = .decimal → AtEndForInu16 s)) ∨
        f = .numberNeverEnds (s.signals ++ s.readSignals s.pc) ∧ vector s = 0x26 ∧ (∀ n, unread s.input n ≠ none) ∧
          (s.cfg.parseU16 = .decimal → TextNeverEnds s.input) ∨
        (∃ turn, f = .stringNeverEnds (s.signals ++ s.readSignals s.pc) turn) ∧ vector s ∈ [0x22, 0x24] ∧
          (∀ a : Word, s.reads a ≠ 0) ∨
        f = .inu16BadInput (s.signals ++ s.readSignals s.pc) ∧ vector s = 0x26 ∧ s.cfg.inu16BadInputPolicy = .stuck)) ∧
    ∀ r : Refusal, step s = .refused r → s.run = .running ∧ opcode s = 0b1111 ∧
      (r = .inu16BadInput ∧ vector s = 0x26 ∧ s.cfg.inu16BadInputPolicy = .refuse ∨
        r = .unknownTrapVector (BitVec.ofNat 8 (vector s)) ∧ (vector s < 0x20 ∨ 0x27 < vector s) ∧
          s.cfg.unknownTrapPolicy = .refuse)

/-- R25, R37, R95: the unread console input is seen by GETC, IN and INU16 alone: for every other instruction that the decoder
answers, other input changes nothing of what it does (a read of `KBSR_ADDR` does not reflect it). -/
def Obligations.InputIsSeenByInputTrapsOnly : Prop :=
  ∀ (i : Instr) (s : State) (l : ConsoleInput), i.wellFormed = true → i ≠ .trapGetc → i ≠ .trapIn → i ≠ .trapInu16 →
    exec i (s.setInput l) = (match exec i s with
      | .next t => .next (t.setInput l)
      | .fault f => .fault f
      | .refused r => .refused r)

/-! ## INU16 on an endless input and with another configuration function (R5, R9, R102) -/

/-- R102 (the default grammar: the spec's D15, log 13): the longest run of digits has no end on blanks for ever, or on blanks
and then digits for ever, and INU16 never completes. The named stop is the model's choice (log 10). -/
def Obligations.Inu16NeverCompletesOnEndlessText : Prop :=
  ∀ s : State, s.cfg.parseU16 = .decimal → TextNeverEnds s.input →
    exec .trapInu16 s = .fault (.numberNeverEnds s.signals)

/-- R9, R102 (log 13): where `ParseU16` is another configuration function, INU16 on an input that is not exhausted does what
the function says of the unread characters: the number goes to R0, and bad input follows the policy (the spec's D15, log 14).
That a text that is never complete counts as the end of a finite input, which follows `EOF_POLICY` (R105; D14, log 14), and
as a step that never completes on an endless one, is the model's inference (log 13). What is consumed under `value(v)`, of a
bad text what the function says and at the end of input all that there was, is the model's inference too (log 12). The named
stops, for a step that never completes, are the model's choice (log 10). -/
def Obligations.Inu16FollowsTheConfigurationFunction : Prop :=
  ∀ s : State, s.cfg.parseU16 = .other → unread s.input 0 ≠ none →
    match Config.parseU16 (unread s.input) with
    | .number n used => Inu16Sets s n used
    | .bad used => Inu16BadInput s used
    | .unfinished => ((∃ n, unread s.input n = none) → Inu16AtEnd s) ∧
        ((∀ n, unread s.input n ≠ none) → exec .trapInu16 s = .fault (.numberNeverEnds s.signals))

/-! ## Endless output (R141) -/

/-- R98, R100, R141 c (U9; the low byte of each word: the spec's D17, log 19): over a memory in which no word reads as zero,
PUTS and PUTSP write for ever: after `k` turns round memory they have sent, beyond what was sent before, the read signals and
the characters of `65536 * k` words from R0 on, in order. The named stop that carries one turn is the model's choice
(log 10). -/
def Obligations.EndlessStringsWriteForEver : Prop :=
  ∀ s : State, (∀ a : Word, s.reads a ≠ 0) →
    (∃ turn, exec .trapPuts s = .fault (.stringNeverEnds s.signals turn) ∧
      ∀ k : Nat, (List.replicate k turn).flatten = (List.range (65536 * k)).flatMap (fun i =>
        s.readSignals (wrap ((s.reg 0).toNat + i)) ++
        [.conOut (BitVec.ofNat 8 (bits 7 0 (s.reads (wrap ((s.reg 0).toNat + i)))))])) ∧
    ∃ turn, exec .trapPutsp s = .fault (.stringNeverEnds s.signals turn) ∧
      ∀ k : Nat, (List.replicate k turn).flatten = (List.range (65536 * k)).flatMap (fun i =>
        let w := s.reads (wrap ((s.reg 0).toNat + i))
        s.readSignals (wrap ((s.reg 0).toNat + i)) ++ Signal.conOut (BitVec.ofNat 8 (bits 7 0 w)) ::
          (if bits 15 8 w = 0 then [] else [.conOut (BitVec.ofNat 8 (bits 15 8 w))]))
end

