-- ==== Sys2Proof/Laws/Console.lean ====
section
/-! SUPPORT. The console input, said once: `ConIn()` takes the first unread character, `dropChars` the first `n`; and every
infinite sequence of characters has one of the three shapes of an endless input. -/

namespace Sys2Proof.Machine
open Sys2Proof.Safety

/-! Characters. -/

theorem isBlank_iff (c : Byte) : isBlank c = true ↔ c ∈ blanks := by
  revert c; decide

theorem isDigit_iff (c : Byte) : isDigit c = true ↔ ∃ d < 10, c = digitChar d := by
  revert c; decide

theorem isDigit_eq_false_iff (c : Byte) : isDigit c = false ↔ c.toNat < 0x30 ∨ 0x39 < c.toNat := by
  simp only [isDigit, Bool.and_eq_false_iff, decide_eq_false_iff_not]; omega

theorem isDigit_digitChar {d : Nat} (h : d < 10) : isDigit (digitChar d) = true :=
  (isDigit_iff _).2 ⟨d, h, rfl⟩

theorem digitChar_value {d : Nat} (h : d < 10) : (digitChar d).toNat - 0x30 = d := by
  revert d; decide

theorem isDigit_of_blank {c : Byte} (h : isBlank c = true) : isDigit c = false := by
  revert c; decide

theorem isBlank_of_digit {c : Byte} (h : isDigit c = true) : isBlank c = false := by
  revert c; decide

theorem isBlank_blankByte (b : Fin 6) : isBlank (blankByte b) = true := by
  revert b; decide

theorem isDigit_digitByte (d : Fin 10) : isDigit (digitByte d) = true := isDigit_digitChar d.isLt

theorem isDigit_pieceStop (p : InputPiece) : isDigit (pieceStop p) = false := by
  unfold pieceStop
  split
  · decide
  · simp_all

theorem isBlank_pieceStop {p : InputPiece} (h : p.digits = []) : isBlank (pieceStop p) = false := by
  unfold pieceStop
  split
  · decide
  · simp_all

theorem pieceText_ne_nil (p : InputPiece) : pieceText p ≠ [] := by simp [pieceText]

/-! The pieces of an endless input. -/

/-- Pieces in a row: a longer row does not change what a character is. -/
theorem flatMap_getElem? (p : Nat → InputPiece) {k k' n : Nat} (hk : n < k) (hk' : k ≤ k') :
    ((List.range k).flatMap fun m => pieceText (p m))[n]? = ((List.range k').flatMap fun m => pieceText (p m))[n]? := by
  have hlen : ∀ k, k ≤ ((List.range k).flatMap fun m => pieceText (p m)).length := by
    intro k
    induction k with
    | zero => simp
    | succ k ih =>
      have := List.length_pos_iff.2 (pieceText_ne_nil (p k))
      simp only [List.range_succ, List.flatMap_append, List.length_append, List.flatMap_cons, List.flatMap_nil,
        List.append_nil]
      omega
  obtain ⟨d, rfl⟩ := Nat.exists_eq_add_of_le hk'
  have := hlen k
  rw [List.range_add, List.flatMap_append, List.getElem?_append_left (by omega)]

/-- The first piece, then the others. -/
theorem piecesChar_eq (p : Nat → InputPiece) (n : Nat) :
    piecesChar p n = if n < (pieceText (p 0)).length then (pieceText (p 0))[n]?
      else piecesChar (fun m => p (m + 1)) (n - (pieceText (p 0)).length) := by
  have h0 := List.length_pos_iff.2 (pieceText_ne_nil (p 0))
  unfold piecesChar
  rw [List.range_succ_eq_map, List.flatMap_cons, List.flatMap_map]
  split
  · rw [List.getElem?_append_left (by assumption)]
  · rw [List.getElem?_append_right (by omega)]
    exact (flatMap_getElem? (fun m => p (m + 1)) (by omega) (by omega)).symm

/-! What is unread. -/

theorem unread_nil (tail : InputTail) (n : Nat) : unread ⟨[], tail⟩ n = tailChar tail n := by simp [unread]

/-- What a tail holds is what the refill gives, then what it leaves. -/
theorem tailChar_eq (tail : InputTail) (n : Nat) :
    tailChar tail n = unread ⟨(refill tail).1, (refill tail).2⟩ n := by
  cases tail with
  | ended => simp [unread, refill, tailChar]
  | pieces next =>
    simp only [unread, refill, tailChar]
    rw [piecesChar_eq]
    simp only [Nat.add_zero, Nat.add_assoc, Nat.add_comm 1]
  | blanks next | digits next =>
    cases n with
    | zero => simp [unread, refill, tailChar]
    | succ n => simp [unread, refill, tailChar, Nat.add_assoc, Nat.add_comm 1]

theorem unread_append (text more : List Byte) (tail : InputTail) (n : Nat) :
    unread ⟨text ++ more, tail⟩ n = if n < text.length then text[n]? else unread ⟨more, tail⟩ (n - text.length) := by
  simp only [unread, List.length_append]
  split
  · split
    · rw [List.getElem?_append_left (by assumption)]
    · rw [List.getElem?_append_right (by omega), if_pos (by omega)]
  · rw [if_neg (by omega), if_neg (by omega)]; congr 1; omega

/-- Listing the refill does not change what is unread. -/
theorem unread_refill (i : ConsoleInput) (n : Nat) :
    unread ⟨i.text ++ (refill i.tail).1, (refill i.tail).2⟩ n = unread i n := by
  rw [unread_append, ← tailChar_eq]; rfl

theorem unread_drop {text : List Byte} {tail : InputTail} {n : Nat} (h : n ≤ text.length) :
    Leaves ⟨text, tail⟩ n ⟨text.drop n, tail⟩ := by
  intro m
  simp only [unread, List.length_drop, List.getElem?_drop]
  by_cases hm : n + m < text.length
  · rw [if_pos (by omega), if_pos hm]
  · rw [if_neg (by omega), if_neg hm]; congr 1; omega

theorem unread_text {i : ConsoleInput} {n : Nat} (h : n < i.text.length) : unread i n = i.text[n]? := if_pos h

/-- An input that has ended stays so. -/
theorem unread_eq_none {i : ConsoleInput} {n : Nat} (h : unread i n = none) :
    i.tail = .ended ∧ i.text.length ≤ n := by
  have hn : i.text.length ≤ n := by
    by_contra hc
    rw [unread_text (by omega), List.getElem?_eq_none_iff] at h
    omega
  refine ⟨?_, hn⟩
  unfold unread at h
  rw [if_neg (by omega)] at h
  generalize n - i.text.length = m at h
  cases ht : i.tail with
  | ended => rfl
  | blanks next => simp [ht, tailChar] at h
  | digits next => simp [ht, tailChar] at h
  | pieces next =>
    exfalso
    rw [ht, tailChar] at h
    generalize (fun m => Config.inputPiece (next + m)) = p at h
    induction m using Nat.strongRecOn generalizing p with
    | ind m ih =>
      rw [piecesChar_eq] at h
      have h0 := List.length_pos_iff.2 (pieceText_ne_nil (p 0))
      split at h
      · rw [List.getElem?_eq_none_iff] at h; omega
      · exact ih _ (by omega) _ h

theorem unread_ended {i : ConsoleInput} {n : Nat} (h : i.tail = .ended) (hn : i.text.length ≤ n) : unread i n = none := by
  simp [unread, h, tailChar, Nat.not_lt.2 hn]

theorem leaves_zero (i : ConsoleInput) : Leaves i 0 i := fun m => by rw [Nat.zero_add]

/-- After all its characters a finite input has ended. -/
theorem leaves_ended {i : ConsoleInput} (h : i.tail = .ended) : Leaves i i.text.length ⟨[], .ended⟩ := fun m => by
  rw [unread_ended rfl (by simp), unread_ended h (by omega)]

/-- `ConIn()` answers the first unread character and leaves the others. -/
theorem conIn_some {i rest : ConsoleInput} {c : Byte} (h : conIn i = some (c, rest)) :
    unread i 0 = some c ∧ Leaves i 1 rest := by
  have key : ∀ (r : List Byte) (tail : InputTail), unread ⟨c :: r, tail⟩ 0 = some c ∧ Leaves ⟨c :: r, tail⟩ 1 ⟨r, tail⟩ :=
    fun r tail => ⟨by simp [unread], unread_drop (text := c :: r) (n := 1) (by simp)⟩
  unfold conIn at h
  split at h
  · rename_i c' r ht
    cases h
    have := key r i.tail
    rwa [← ht] at this
  · rename_i ht
    split at h
    · rename_i c' r hr
      cases h
      have h1 : ∀ n, unread ⟨c :: r, (refill i.tail).2⟩ n = unread i n := by
        intro n; rw [← unread_refill i n, ht, hr]; rfl
      obtain ⟨ha, hb⟩ := key r (refill i.tail).2
      exact ⟨by rw [← h1, ha], fun m => by rw [hb m, h1]⟩
    · cases h

theorem conIn_none {i : ConsoleInput} : conIn i = none ↔ unread i 0 = none := by
  constructor
  · intro h
    unfold conIn at h
    split at h
    · cases h
    · rename_i ht
      split at h
      · cases h
      · rename_i hr
        cases hi : i.tail <;> rw [hi] at hr
        · simp [unread, ht, hi, tailChar]
        · exact absurd hr (pieceText_ne_nil _)
        all_goals simp [refill] at hr
  · intro h
    cases hc : conIn i with
    | none => rfl
    | some x => rw [(conIn_some (c := x.1) (rest := x.2) hc).1] at h; cases h

/-- `dropChars` consumes from the front. -/
theorem dropChars_leaves (n : Nat) (i : ConsoleInput) : Leaves i n (dropChars n i) := by
  induction n generalizing i with
  | zero => intro m; simp [dropChars]
  | succ n ih =>
    intro m
    simp only [dropChars]
    split
    · rename_i c rest h
      rw [ih rest m, (conIn_some h).2]; congr 1; omega
    · rename_i h
      obtain ⟨ht, hl⟩ := unread_eq_none (conIn_none.1 h)
      rw [unread_ended ht (by omega), unread_ended ht (by omega)]

/-! The three shapes of an endless input (log 9). -/

theorem blanks_of_isBlank {l : List Byte} (hl : ∀ c ∈ l, isBlank c = true) : ∃ bs : List (Fin 6), l = bs.map blankByte := by
  have hone : ∀ c : Byte, isBlank c = true → ∃ b : Fin 6, c = blankByte b := by decide
  induction l with
  | nil => exact ⟨[], rfl⟩
  | cons c l ih =>
    obtain ⟨bs, rfl⟩ := ih (fun x hx => hl x (by simp [hx]))
    obtain ⟨b, rfl⟩ := hone c (hl c (by simp))
    exact ⟨b :: bs, rfl⟩

theorem digitBytes_of_isDigit {l : List Byte} (hl : ∀ c ∈ l, isDigit c = true) :
    ∃ ds : List (Fin 10), l = ds.map (fun d => digitByte d) := by
  have hone : ∀ c : Byte, isDigit c = true → ∃ d : Fin 10, c = digitByte d := by decide
  induction l with
  | nil => exact ⟨[], rfl⟩
  | cons c l ih =>
    obtain ⟨ds, rfl⟩ := ih (fun x hx => hl x (by simp [hx]))
    obtain ⟨d, rfl⟩ := hone c (hl c (by simp))
    exact ⟨d :: ds, rfl⟩

/-- Where neither the blanks nor the digits go on for ever, a piece begins at every character. -/
theorem piece_at (σ : Nat → Byte) (hB : ∀ k, ∃ n, isBlank (σ (k + n)) = false)
    (hD : ∀ k, ∃ n, isDigit (σ (k + n)) = false) (k : Nat) :
    ∃ q : InputPiece, ∀ n, n < (pieceText q).length → (pieceText q)[n]? = some (σ (k + n)) := by
  classical
  have ha := Nat.find_spec (hB k)
  have ha' : ∀ n, n < Nat.find (hB k) → isBlank (σ (k + n)) = true := fun n hn => by
    simpa using Nat.find_min (hB k) hn
  generalize Nat.find (hB k) = a at ha ha'
  have hb := Nat.find_spec (hD (k + a))
  have hb' : ∀ n, n < Nat.find (hD (k + a)) → isDigit (σ (k + a + n)) = true := fun n hn => by
    simpa using Nat.find_min (hD (k + a)) hn
  generalize Nat.find (hD (k + a)) = b at hb hb'
  obtain ⟨bs, hbs⟩ := blanks_of_isBlank (l := (List.range a).map fun n => σ (k + n)) (by simpa using ha')
  obtain ⟨ds, hds⟩ := digitBytes_of_isDigit (l := (List.range b).map fun n => σ (k + a + n)) (by simpa using hb')
  have hlb : bs.length = a := by simpa using (congrArg List.length hbs).symm
  have hld : ds.length = b := by simpa using (congrArg List.length hds).symm
  have hstop : pieceStop ⟨bs, ds, σ (k + a + b)⟩ = σ (k + a + b) := by
    unfold pieceStop
    rw [if_neg]
    simp only [hb, Bool.false_or, Bool.and_eq_true, not_and, Bool.not_eq_true, List.isEmpty_iff]
    rintro rfl
    simp at hld
    subst hld
    simpa using ha
  refine ⟨⟨bs, ds, σ (k + a + b)⟩, fun n hn => ?_⟩
  have htext : pieceText ⟨bs, ds, σ (k + a + b)⟩ = (List.range (a + b + 1)).map fun n => σ (k + n) := by
    rw [pieceText, hstop]
    simp only [← hbs, ← hds]
    rw [List.range_succ, List.range_add]
    simp [Nat.add_assoc]
  rw [htext] at hn ⊢
  simp at hn
  simp [hn]

/-- Where the pieces begin that are chosen by the character they begin at. -/
def pieceStart (q : Nat → InputPiece) : Nat → Nat
  | 0 => 0
  | k + 1 => pieceStart q k + (pieceText (q (pieceStart q k))).length

/-- Every infinite sequence of characters is pieces in a row, or ends in blanks, or ends in digits. -/
theorem endless_shapes (σ : Nat → Byte) :
    (∃ p : Nat → InputPiece, ∀ n, piecesChar p n = some (σ n)) ∨
    (∃ k, ∀ n, isBlank (σ (k + n)) = true) ∨ ∃ k, ∀ n, isDigit (σ (k + n)) = true := by
  by_cases hB : ∃ k, ∀ n, isBlank (σ (k + n)) = true
  · exact .inr (.inl hB)
  by_cases hD : ∃ k, ∀ n, isDigit (σ (k + n)) = true
  · exact .inr (.inr hD)
  push Not at hB hD
  choose q hq using piece_at σ (fun k => by simpa using hB k) (fun k => by simpa using hD k)
  refine .inl ⟨fun k => q (pieceStart q k), fun n => ?_⟩
  have key : ∀ n k, piecesChar (fun m => q (pieceStart q (k + m))) n = some (σ (pieceStart q k + n)) := by
    intro n
    induction n using Nat.strongRecOn with
    | ind n ih =>
      intro k
      rw [piecesChar_eq, Nat.add_zero]
      have h0 := List.length_pos_iff.2 (pieceText_ne_nil (q (pieceStart q k)))
      split
      · exact hq _ n (by assumption)
      · have := ih (n - (pieceText (q (pieceStart q k))).length) (by omega) (k + 1)
        simp only [Nat.add_assoc, Nat.add_comm 1, pieceStart] at this ⊢
        rw [this]
        congr 2
        omega
  simpa [pieceStart] using key n 0

end Sys2Proof.Machine
end

