-- ==== Sys2Proof/Laws/Decode.lean ====
section
/-! SUPPORT. The bits of a word, its fields, and what the decoder answers for each opcode. -/

namespace Sys2Proof
open Sys2Proof.Safety

/-- `v[hi:lo]` on numbers is the extracted field. -/
theorem bits_eq_toNat_field (hi lo : Nat) (v : Word) : bits hi lo v = (field lo (hi + 1 - lo) v).toNat := by
  simp [bits, field, Nat.shiftRight_eq_div_pow]

theorem regField_eq_field (lo : Nat) (v : Word) : regField lo v = field lo 3 v := by
  apply BitVec.eq_of_toNat_eq
  have : lo + 2 + 1 - lo = 3 := by omega
  simp [regField, bits, field, Nat.shiftRight_eq_div_pow, this]

theorem ofNat_bits_eq_field (n lo hi : Nat) (v : Word) (h : hi + 1 - lo = n) :
    BitVec.ofNat n (bits hi lo v) = field lo n v := by
  apply BitVec.eq_of_toNat_eq
  simp [bits, field, Nat.shiftRight_eq_div_pow, h]

/-- A bit of a word, from the field that holds it. -/
theorem getLsbD_of_bits {hi lo i : Nat} (v : Word) (h : i < hi + 1 - lo) :
    v.getLsbD (lo + i) = (bits hi lo v).testBit i := by
  simp [bits, BitVec.getLsbD, h, Nat.testBit_div_two_pow, Nat.add_comm]

theorem bits_lt (hi lo : Nat) (v : Word) : bits hi lo v < 2 ^ (hi + 1 - lo) :=
  Nat.mod_lt _ (Nat.two_pow_pos _)

theorem bit5_eq (ir : Word) : ir.getLsbD 5 = (bits 5 5 ir).testBit 0 := getLsbD_of_bits (hi := 5) (lo := 5) (i := 0) ir (by decide)

theorem bit11_eq (ir : Word) : ir.getLsbD 11 = (bits 11 11 ir).testBit 0 := getLsbD_of_bits (hi := 11) (lo := 11) (i := 0) ir (by decide)

theorem opcode_bits (ir : Word) :
    ir.getLsbD 15 = (bits 15 12 ir).testBit 3 ∧ ir.getLsbD 14 = (bits 15 12 ir).testBit 2 ∧
    ir.getLsbD 13 = (bits 15 12 ir).testBit 1 ∧ ir.getLsbD 12 = (bits 15 12 ir).testBit 0 :=
  ⟨getLsbD_of_bits (hi := 15) (lo := 12) (i := 3) ir (by decide),
    getLsbD_of_bits (hi := 15) (lo := 12) (i := 2) ir (by decide),
    getLsbD_of_bits (hi := 15) (lo := 12) (i := 1) ir (by decide),
    getLsbD_of_bits (hi := 15) (lo := 12) (i := 0) ir (by decide)⟩

/-- The decoder as a choice by the number of the opcode (R53). -/
theorem decode_eq_of_opcode (ir : Word) : decode ir =
    (match bits 15 12 ir with
    | 0 => .br (field 9 3 ir) (field 0 9 ir)
    | 1 => if bits 5 5 ir = 1 then .addImm (field 9 3 ir) (field 6 3 ir) (field 0 5 ir)
        else .addReg (field 9 3 ir) (field 6 3 ir) (field 0 3 ir)
    | 2 => .ld (field 9 3 ir) (field 0 9 ir)
    | 3 => .st (field 9 3 ir) (field 0 9 ir)
    | 4 => if bits 11 11 ir = 1 then .jsr (field 0 11 ir) else .jsrr (field 6 3 ir)
    | 5 => if bits 5 5 ir = 1 then .andImm (field 9 3 ir) (field 6 3 ir) (field 0 5 ir)
        else .andReg (field 9 3 ir) (field 6 3 ir) (field 0 3 ir)
    | 6 => .ldr (field 9 3 ir) (field 6 3 ir) (field 0 6 ir)
    | 7 => .str (field 9 3 ir) (field 6 3 ir) (field 0 6 ir)
    | 8 => .rti
    | 9 => .notReg (field 9 3 ir) (field 6 3 ir)
    | 10 => .ldi (field 9 3 ir) (field 0 9 ir)
    | 11 => .sti (field 9 3 ir) (field 0 9 ir)
    | 12 => .jmp (field 6 3 ir)
    | 13 => .res
    | 14 => .lea (field 9 3 ir) (field 0 9 ir)
    | _ => decodeTrap (field 0 8 ir)) := by
  obtain ⟨h3, h2, h1, h0⟩ := opcode_bits ir
  have h5 := bit5_eq ir
  have h11 := bit11_eq ir
  have hb5 : bits 5 5 ir = 0 ∨ bits 5 5 ir = 1 := by have := bits_lt 5 5 ir; omega
  have hb11 : bits 11 11 ir = 0 ∨ bits 11 11 ir = 1 := by have := bits_lt 11 11 ir; omega
  unfold decode
  rw [h3, h2, h1, h0, h5, h11]
  have hlt : bits 15 12 ir < 16 := bits_lt 15 12 ir
  generalize bits 15 12 ir = k at hlt
  rcases hb5 with hb5 | hb5 <;> rcases hb11 with hb11 | hb11 <;> rw [hb5, hb11] <;>
    interval_cases k <;> rfl

end Sys2Proof
end

