-- ==== Sys2Proof/Laws/Encode.lean ====
section
/-! SUPPORT. The encoder and the masks of the opcode table as arithmetic on numbers, so that statements about encodings are
left to linear arithmetic. -/

namespace Sys2Proof
open Sys2Proof.Safety

/-- The number of a concatenation of fields. -/
theorem append_toNat {m n : Nat} (a : BitVec m) (b : BitVec n) : (a ++ b).toNat = a.toNat * 2 ^ n + b.toNat := by
  rw [BitVec.toNat_append, Nat.shiftLeft_eq, Nat.mul_comm, Nat.two_pow_add_eq_or_of_lt b.isLt]

/-- The number of an instruction's word, as a sum of its fields. -/
def encodedNumber : Instr → Nat
  | .addReg dr sr1 sr2 => 0x1000 + 512 * dr.toNat + 64 * sr1.toNat + sr2.toNat
  | .addImm dr sr1 imm5 => 0x1020 + 512 * dr.toNat + 64 * sr1.toNat + imm5.toNat
  | .andReg dr sr1 sr2 => 0x5000 + 512 * dr.toNat + 64 * sr1.toNat + sr2.toNat
  | .andImm dr sr1 imm5 => 0x5020 + 512 * dr.toNat + 64 * sr1.toNat + imm5.toNat
  | .notReg dr sr1 => 0x903F + 512 * dr.toNat + 64 * sr1.toNat
  | .br nzp offset9 => 512 * nzp.toNat + offset9.toNat
  | .jmp baseR => 0xC000 + 64 * baseR.toNat
  | .jsr offset11 => 0x4800 + offset11.toNat
  | .jsrr baseR => 0x4000 + 64 * baseR.toNat
  | .ld dr offset9 => 0x2000 + 512 * dr.toNat + offset9.toNat
  | .ldi dr offset9 => 0xA000 + 512 * dr.toNat + offset9.toNat
  | .ldr dr baseR offset6 => 0x6000 + 512 * dr.toNat + 64 * baseR.toNat + offset6.toNat
  | .lea dr offset9 => 0xE000 + 512 * dr.toNat + offset9.toNat
  | .st sr offset9 => 0x3000 + 512 * sr.toNat + offset9.toNat
  | .sti sr offset9 => 0xB000 + 512 * sr.toNat + offset9.toNat
  | .str sr baseR offset6 => 0x7000 + 512 * sr.toNat + 64 * baseR.toNat + offset6.toNat
  | .rti => 0x8000
  | .res => 0xD000
  | .trapGetc => 0xF020
  | .trapOut => 0xF021
  | .trapPuts => 0xF022
  | .trapIn => 0xF023
  | .trapPutsp => 0xF024
  | .trapHalt => 0xF025
  | .trapInu16 => 0xF026
  | .trapOutu16 => 0xF027
  | .trap vector8 => 0xF000 + vector8.toNat

theorem encode_toNat (i : Instr) : (encode i).toNat = encodedNumber i := by
  cases i <;> simp only [encode, encodedNumber, append_toNat, BitVec.toNat_ofNat, BitVec.reduceToNat] <;> omega

/-! The bits that each mask of the opcode table keeps. -/

theorem mask_F000 (ir : Word) : (ir &&& 0xF000).toNat = bits 15 12 ir * 4096 := by
  have h : ir &&& 0xF000 = field 12 4 ir ++ 0#12 := by
    apply BitVec.eq_of_getLsbD_eq
    intro k hk
    rw [BitVec.getLsbD_and, BitVec.getLsbD_append]
    interval_cases k <;> simp [field]
  rw [h, append_toNat, bits_eq_toNat_field]; simp

theorem mask_F020 (ir : Word) : (ir &&& 0xF020).toNat = bits 15 12 ir * 4096 + bits 5 5 ir * 32 := by
  have h : ir &&& 0xF020 = field 12 4 ir ++ (0#6 ++ (field 5 1 ir ++ 0#5)) := by
    apply BitVec.eq_of_getLsbD_eq
    intro k hk
    rw [BitVec.getLsbD_and, BitVec.getLsbD_append, BitVec.getLsbD_append, BitVec.getLsbD_append]
    interval_cases k <;> simp [field]
  rw [h, append_toNat, append_toNat, append_toNat, bits_eq_toNat_field, bits_eq_toNat_field]; simp

theorem mask_F800 (ir : Word) : (ir &&& 0xF800).toNat = bits 15 12 ir * 4096 + bits 11 11 ir * 2048 := by
  have h : ir &&& 0xF800 = field 12 4 ir ++ (field 11 1 ir ++ 0#11) := by
    apply BitVec.eq_of_getLsbD_eq
    intro k hk
    rw [BitVec.getLsbD_and, BitVec.getLsbD_append, BitVec.getLsbD_append]
    interval_cases k <;> simp [field]
  rw [h, append_toNat, append_toNat, bits_eq_toNat_field, bits_eq_toNat_field]; simp

theorem mask_F0FF (ir : Word) : (ir &&& 0xF0FF).toNat = bits 15 12 ir * 4096 + bits 7 0 ir := by
  have h : ir &&& 0xF0FF = field 12 4 ir ++ (0#4 ++ field 0 8 ir) := by
    apply BitVec.eq_of_getLsbD_eq
    intro k hk
    rw [BitVec.getLsbD_and, BitVec.getLsbD_append, BitVec.getLsbD_append]
    interval_cases k <;> simp [field]
  rw [h, append_toNat, append_toNat, bits_eq_toNat_field, bits_eq_toNat_field]; simp

/-- The word of an instruction has the bits of the instruction's row. -/
theorem encode_masked (i : Instr) : i.wellFormed = true → encode i &&& i.row.mask = i.row.pattern := by
  intro
  have h := encode_toNat i
  apply BitVec.eq_of_toNat_eq
  cases i <;>
    simp only [Instr.row, mask_F000, mask_F020, mask_F800, mask_F0FF, bits, h, encodedNumber, BitVec.reduceToNat] <;>
    omega

end Sys2Proof
end

