-- ==== Sys2Proof/Laws/State.lean ====
section
/-! SUPPORT. One lemma per field of `State` and update, true by `rfl`, so that no proof unfolds a record update. -/

namespace Sys2Proof.Machine

@[simp] theorem State.setReg_regs (s : State) (r : RegIdx) (v : Word) : (s.setReg r v).regs = s.regs.set r.toNat v (regIdx_lt r) := rfl
@[simp] theorem State.setReg_pc (s : State) (r : RegIdx) (v : Word) : (s.setReg r v).pc = s.pc := rfl
@[simp] theorem State.setReg_cond (s : State) (r : RegIdx) (v : Word) : (s.setReg r v).cond = s.cond := rfl
@[simp] theorem State.setReg_run (s : State) (r : RegIdx) (v : Word) : (s.setReg r v).run = s.run := rfl
@[simp] theorem State.setReg_mem (s : State) (r : RegIdx) (v : Word) : (s.setReg r v).mem = s.mem := rfl
@[simp] theorem State.setReg_input (s : State) (r : RegIdx) (v : Word) : (s.setReg r v).input = s.input := rfl
@[simp] theorem State.setReg_signals (s : State) (r : RegIdx) (v : Word) : (s.setReg r v).signals = s.signals := rfl
@[simp] theorem State.setReg_cfg (s : State) (r : RegIdx) (v : Word) : (s.setReg r v).cfg = s.cfg := rfl

@[simp] theorem State.setPc_regs (s : State) (v : Word) : (s.setPc v).regs = s.regs := rfl
@[simp] theorem State.setPc_pc (s : State) (v : Word) : (s.setPc v).pc = v := rfl
@[simp] theorem State.setPc_cond (s : State) (v : Word) : (s.setPc v).cond = s.cond := rfl
@[simp] theorem State.setPc_run (s : State) (v : Word) : (s.setPc v).run = s.run := rfl
@[simp] theorem State.setPc_mem (s : State) (v : Word) : (s.setPc v).mem = s.mem := rfl
@[simp] theorem State.setPc_input (s : State) (v : Word) : (s.setPc v).input = s.input := rfl
@[simp] theorem State.setPc_signals (s : State) (v : Word) : (s.setPc v).signals = s.signals := rfl
@[simp] theorem State.setPc_cfg (s : State) (v : Word) : (s.setPc v).cfg = s.cfg := rfl

@[simp] theorem State.setCond_regs (s : State) (c : BitVec 3) : (s.setCond c).regs = s.regs := rfl
@[simp] theorem State.setCond_pc (s : State) (c : BitVec 3) : (s.setCond c).pc = s.pc := rfl
@[simp] theorem State.setCond_cond (s : State) (c : BitVec 3) : (s.setCond c).cond = c := rfl
@[simp] theorem State.setCond_run (s : State) (c : BitVec 3) : (s.setCond c).run = s.run := rfl
@[simp] theorem State.setCond_mem (s : State) (c : BitVec 3) : (s.setCond c).mem = s.mem := rfl
@[simp] theorem State.setCond_input (s : State) (c : BitVec 3) : (s.setCond c).input = s.input := rfl
@[simp] theorem State.setCond_signals (s : State) (c : BitVec 3) : (s.setCond c).signals = s.signals := rfl
@[simp] theorem State.setCond_cfg (s : State) (c : BitVec 3) : (s.setCond c).cfg = s.cfg := rfl

@[simp] theorem State.setRun_regs (s : State) (r : RunState) : (s.setRun r).regs = s.regs := rfl
@[simp] theorem State.setRun_pc (s : State) (r : RunState) : (s.setRun r).pc = s.pc := rfl
@[simp] theorem State.setRun_cond (s : State) (r : RunState) : (s.setRun r).cond = s.cond := rfl
@[simp] theorem State.setRun_run (s : State) (r : RunState) : (s.setRun r).run = r := rfl
@[simp] theorem State.setRun_mem (s : State) (r : RunState) : (s.setRun r).mem = s.mem := rfl
@[simp] theorem State.setRun_input (s : State) (r : RunState) : (s.setRun r).input = s.input := rfl
@[simp] theorem State.setRun_signals (s : State) (r : RunState) : (s.setRun r).signals = s.signals := rfl
@[simp] theorem State.setRun_cfg (s : State) (r : RunState) : (s.setRun r).cfg = s.cfg := rfl

@[simp] theorem State.setInput_regs (s : State) (l : ConsoleInput) : (s.setInput l).regs = s.regs := rfl
@[simp] theorem State.setInput_pc (s : State) (l : ConsoleInput) : (s.setInput l).pc = s.pc := rfl
@[simp] theorem State.setInput_cond (s : State) (l : ConsoleInput) : (s.setInput l).cond = s.cond := rfl
@[simp] theorem State.setInput_run (s : State) (l : ConsoleInput) : (s.setInput l).run = s.run := rfl
@[simp] theorem State.setInput_mem (s : State) (l : ConsoleInput) : (s.setInput l).mem = s.mem := rfl
@[simp] theorem State.setInput_input (s : State) (l : ConsoleInput) : (s.setInput l).input = l := rfl
@[simp] theorem State.setInput_signals (s : State) (l : ConsoleInput) : (s.setInput l).signals = s.signals := rfl
@[simp] theorem State.setInput_cfg (s : State) (l : ConsoleInput) : (s.setInput l).cfg = s.cfg := rfl

@[simp] theorem State.send_regs (s : State) (l : List Signal) : (s.send l).regs = s.regs := rfl
@[simp] theorem State.send_pc (s : State) (l : List Signal) : (s.send l).pc = s.pc := rfl
@[simp] theorem State.send_cond (s : State) (l : List Signal) : (s.send l).cond = s.cond := rfl
@[simp] theorem State.send_run (s : State) (l : List Signal) : (s.send l).run = s.run := rfl
@[simp] theorem State.send_mem (s : State) (l : List Signal) : (s.send l).mem = s.mem := rfl
@[simp] theorem State.send_input (s : State) (l : List Signal) : (s.send l).input = s.input := rfl
@[simp] theorem State.send_signals (s : State) (l : List Signal) : (s.send l).signals = s.signals ++ l := rfl
@[simp] theorem State.send_cfg (s : State) (l : List Signal) : (s.send l).cfg = s.cfg := rfl

@[simp] theorem memWrite_regs (s : State) (a v : Word) : (memWrite a v s).regs = s.regs := rfl
@[simp] theorem memWrite_pc (s : State) (a v : Word) : (memWrite a v s).pc = s.pc := rfl
@[simp] theorem memWrite_cond (s : State) (a v : Word) : (memWrite a v s).cond = s.cond := rfl
@[simp] theorem memWrite_run (s : State) (a v : Word) : (memWrite a v s).run = s.run := rfl
@[simp] theorem memWrite_mem (s : State) (a v : Word) : (memWrite a v s).mem = s.mem.set a.toNat v := rfl
@[simp] theorem memWrite_input (s : State) (a v : Word) : (memWrite a v s).input = s.input := rfl
@[simp] theorem memWrite_signals (s : State) (a v : Word) : (memWrite a v s).signals = s.signals := rfl
@[simp] theorem memWrite_cfg (s : State) (a v : Word) : (memWrite a v s).cfg = s.cfg := rfl

@[simp] theorem setcc_regs (s : State) (v : Word) : (setcc v s).regs = s.regs := rfl
@[simp] theorem setcc_pc (s : State) (v : Word) : (setcc v s).pc = s.pc := rfl
@[simp] theorem setcc_cond (s : State) (v : Word) : (setcc v s).cond = condOf v := rfl
@[simp] theorem setcc_run (s : State) (v : Word) : (setcc v s).run = s.run := rfl
@[simp] theorem setcc_mem (s : State) (v : Word) : (setcc v s).mem = s.mem := rfl
@[simp] theorem setcc_input (s : State) (v : Word) : (setcc v s).input = s.input := rfl
@[simp] theorem setcc_signals (s : State) (v : Word) : (setcc v s).signals = s.signals := rfl
@[simp] theorem setcc_cfg (s : State) (v : Word) : (setcc v s).cfg = s.cfg := rfl

@[simp] theorem writeDest_regs (s : State) (d : RegIdx) (v : Word) : (writeDest d v s).regs = s.regs.set d.toNat v (regIdx_lt d) := rfl
@[simp] theorem writeDest_pc (s : State) (d : RegIdx) (v : Word) : (writeDest d v s).pc = s.pc := rfl
@[simp] theorem writeDest_cond (s : State) (d : RegIdx) (v : Word) : (writeDest d v s).cond = condOf v := rfl
@[simp] theorem writeDest_run (s : State) (d : RegIdx) (v : Word) : (writeDest d v s).run = s.run := rfl
@[simp] theorem writeDest_mem (s : State) (d : RegIdx) (v : Word) : (writeDest d v s).mem = s.mem := rfl
@[simp] theorem writeDest_input (s : State) (d : RegIdx) (v : Word) : (writeDest d v s).input = s.input := rfl
@[simp] theorem writeDest_signals (s : State) (d : RegIdx) (v : Word) : (writeDest d v s).signals = s.signals := rfl
@[simp] theorem writeDest_cfg (s : State) (d : RegIdx) (v : Word) : (writeDest d v s).cfg = s.cfg := rfl

/-! Reads of registers and memory words through the updates of other fields. -/

@[simp] theorem State.setReg_word (s : State) (r : RegIdx) (v : Word) (q : Word) : (s.setReg r v).word q = s.word q := rfl
@[simp] theorem State.setReg_reads (s : State) (r : RegIdx) (v : Word) (q : Word) : (s.setReg r v).reads q = s.reads q := rfl
@[simp] theorem State.setReg_readSignals (s : State) (r : RegIdx) (v : Word) (q : Word) : (s.setReg r v).readSignals q = s.readSignals q := rfl
@[simp] theorem State.setPc_reg (s : State) (v : Word) (q : RegIdx) : (s.setPc v).reg q = s.reg q := rfl
@[simp] theorem State.setPc_word (s : State) (v : Word) (q : Word) : (s.setPc v).word q = s.word q := rfl
@[simp] theorem State.setPc_reads (s : State) (v : Word) (q : Word) : (s.setPc v).reads q = s.reads q := rfl
@[simp] theorem State.setPc_readSignals (s : State) (v : Word) (q : Word) : (s.setPc v).readSignals q = s.readSignals q := rfl
@[simp] theorem State.setCond_reg (s : State) (c : BitVec 3) (q : RegIdx) : (s.setCond c).reg q = s.reg q := rfl
@[simp] theorem State.setCond_word (s : State) (c : BitVec 3) (q : Word) : (s.setCond c).word q = s.word q := rfl
@[simp] theorem State.setCond_reads (s : State) (c : BitVec 3) (q : Word) : (s.setCond c).reads q = s.reads q := rfl
@[simp] theorem State.setCond_readSignals (s : State) (c : BitVec 3) (q : Word) : (s.setCond c).readSignals q = s.readSignals q := rfl
@[simp] theorem State.setRun_reg (s : State) (r : RunState) (q : RegIdx) : (s.setRun r).reg q = s.reg q := rfl
@[simp] theorem State.setRun_word (s : State) (r : RunState) (q : Word) : (s.setRun r).word q = s.word q := rfl
@[simp] theorem State.setRun_reads (s : State) (r : RunState) (q : Word) : (s.setRun r).reads q = s.reads q := rfl
@[simp] theorem State.setRun_readSignals (s : State) (r : RunState) (q : Word) : (s.setRun r).readSignals q = s.readSignals q := rfl
@[simp] theorem State.setInput_reg (s : State) (l : ConsoleInput) (q : RegIdx) : (s.setInput l).reg q = s.reg q := rfl
@[simp] theorem State.setInput_word (s : State) (l : ConsoleInput) (q : Word) : (s.setInput l).word q = s.word q := rfl
@[simp] theorem State.setInput_reads (s : State) (l : ConsoleInput) (q : Word) : (s.setInput l).reads q = s.reads q := rfl
@[simp] theorem State.setInput_readSignals (s : State) (l : ConsoleInput) (q : Word) : (s.setInput l).readSignals q = s.readSignals q := rfl
@[simp] theorem State.send_reg (s : State) (l : List Signal) (q : RegIdx) : (s.send l).reg q = s.reg q := rfl
@[simp] theorem State.send_word (s : State) (l : List Signal) (q : Word) : (s.send l).word q = s.word q := rfl
@[simp] theorem State.send_reads (s : State) (l : List Signal) (q : Word) : (s.send l).reads q = s.reads q := rfl
@[simp] theorem State.send_readSignals (s : State) (l : List Signal) (q : Word) : (s.send l).readSignals q = s.readSignals q := rfl
@[simp] theorem memWrite_reg (s : State) (a v : Word) (q : RegIdx) : (memWrite a v s).reg q = s.reg q := rfl
@[simp] theorem memWrite_readSignals (s : State) (a v : Word) (q : Word) : (memWrite a v s).readSignals q = s.readSignals q := rfl
@[simp] theorem setcc_reg (s : State) (v : Word) (q : RegIdx) : (setcc v s).reg q = s.reg q := rfl
@[simp] theorem setcc_word (s : State) (v q : Word) : (setcc v s).word q = s.word q := rfl
@[simp] theorem writeDest_word (s : State) (d : RegIdx) (v q : Word) : (writeDest d v s).word q = s.word q := rfl

end Sys2Proof.Machine
end

