-- ==== Sys2Proof/Laws/Ops.lean ====
section
/-! SUPPORT. What each shared operation does, said once: registers, memory and its canonical form, `MemRead`, the
loader's writes, flags, effective addresses. -/

namespace Sys2Proof.Machine

/-! Registers. -/

@[simp] theorem State.setReg_reg_same (s : State) (r : RegIdx) (v : Word) : (s.setReg r v).reg r = v := by
  simp [State.reg, State.setReg]

theorem State.setReg_reg_other (s : State) {r q : RegIdx} (v : Word) (h : q ≠ r) :
    (s.setReg r v).reg q = s.reg q := by
  have hne : r.toNat ≠ q.toNat := fun e => h (BitVec.eq_of_toNat_eq e.symm)
  simp [State.reg, State.setReg, Vector.getElem_set_ne _ _ hne]

@[simp] theorem writeDest_reg_same (s : State) (d : RegIdx) (v : Word) : (writeDest d v s).reg d = v :=
  State.setReg_reg_same s d v

theorem writeDest_reg_other (s : State) {d q : RegIdx} (v : Word) (h : q ≠ d) :
    (writeDest d v s).reg q = s.reg q :=
  State.setReg_reg_other s v h

/-! Memory: reads after writes, and the canonical form. -/

@[simp] theorem Memory.get_nil (a : Nat) : Memory.get [] a = Memory.unlisted := rfl

theorem Memory.get_of_lt {m : Memory} {a : Nat} (h : ∀ c ∈ m, a < c.1) : m.get a = Memory.unlisted := by
  induction m with
  | nil => rfl
  | cons c m ih =>
    have hc : c.1 ≠ a := Nat.ne_of_gt (h c (by simp))
    simp [Memory.get, hc, ih (fun d hd => h d (by simp [hd]))]

theorem Memory.get_set_same {m : Memory} (h : Memory.wf m) (a : Nat) (v : Word) : (m.set a v).get a = v := by
  induction m with
  | nil => by_cases hv : v = Memory.unlisted <;> simp [Memory.set, Memory.get, hv]
  | cons c m ih =>
    have hw : Memory.wf m := ⟨(List.pairwise_cons.1 h.1).2, fun d hd => h.2 d (by simp [hd])⟩
    have hlt := (List.pairwise_cons.1 h.1).1
    rcases Nat.lt_trichotomy c.1 a with hc | hc | hc
    · simp [Memory.set, hc, Memory.get, Nat.ne_of_lt hc, ih hw]
    · subst hc
      by_cases hv : v = Memory.unlisted
      · simpa [Memory.set, hv] using Memory.get_of_lt hlt
      · simp [Memory.set, hv, Memory.get]
    · have hn : ¬c.1 < a := by omega
      have hne : c.1 ≠ a := by omega
      by_cases hv : v = Memory.unlisted
      · have : ∀ d ∈ c :: m, a < d.1 := by
          intro d hd
          rcases List.mem_cons.1 hd with rfl | hd
          · exact hc
          · exact Nat.lt_trans hc (hlt d hd)
        simpa [Memory.set, hn, hne, hv] using Memory.get_of_lt this
      · simp [Memory.set, hn, hne, hv, Memory.get]

theorem Memory.get_set_other (m : Memory) {a b : Nat} (v : Word) (h : b ≠ a) : (m.set a v).get b = m.get b := by
  induction m with
  | nil => by_cases hv : v = Memory.unlisted <;> simp [Memory.set, Memory.get, hv, h.symm]
  | cons c m ih =>
    by_cases hc : c.1 < a
    · simp [Memory.set, hc, Memory.get, ih]
    · by_cases he : c.1 = a <;> by_cases hv : v = Memory.unlisted <;>
        simp [Memory.set, hc, he, hv, Memory.get, h.symm]

theorem Memory.mem_set {m : Memory} {a : Nat} {v : Word} {d : Cell} (h : d ∈ m.set a v) :
    d ∈ m ∨ (d = (a, v) ∧ v ≠ Memory.unlisted) := by
  induction m with
  | nil => by_cases hv : v = Memory.unlisted <;> simp_all [Memory.set]
  | cons c m ih =>
    by_cases hc : c.1 < a
    · simp only [Memory.set, hc, if_true, List.mem_cons] at h ⊢
      rcases h with h | h
      · exact .inl (.inl h)
      · exact (ih h).imp_left .inr
    · by_cases he : c.1 = a <;> by_cases hv : v = Memory.unlisted <;>
        simp_all [Memory.set, List.mem_cons] <;> tauto

/-- Every write keeps the canonical form. -/
theorem Memory.set_wf {m : Memory} {a : Nat} (v : Word) (h : Memory.wf m) (ha : a < 65536) :
    Memory.wf (m.set a v) := by
  refine ⟨?_, fun d hd => ?_⟩
  · induction m with
    | nil => by_cases hv : v = Memory.unlisted <;> simp [Memory.set, hv]
    | cons c m ih =>
      have hw : Memory.wf m := ⟨(List.pairwise_cons.1 h.1).2, fun d hd => h.2 d (by simp [hd])⟩
      have hlt := (List.pairwise_cons.1 h.1).1
      by_cases hc : c.1 < a
      · simp only [Memory.set, hc, if_true, List.pairwise_cons]
        refine ⟨fun d hd => ?_, ih hw⟩
        rcases Memory.mem_set hd with hd | ⟨rfl, -⟩
        · exact hlt d hd
        · exact hc
      · by_cases he : c.1 = a
        · by_cases hv : v = Memory.unlisted
          · simpa [Memory.set, hc, he, hv] using hw.1
          · subst he
            simp only [Memory.set, Nat.lt_irrefl, hv, if_true, if_false, List.pairwise_cons]
            exact ⟨hlt, hw.1⟩
        · by_cases hv : v = Memory.unlisted
          · simpa [Memory.set, hc, he, hv] using h.1
          · simp only [Memory.set, hc, he, hv, if_false, List.pairwise_cons]
            refine ⟨fun d hd => ?_, List.pairwise_cons.1 h.1⟩
            rcases List.mem_cons.1 hd with rfl | hd
            · omega
            · have := hlt d hd; omega
  · rcases Memory.mem_set hd with hd | ⟨rfl, hv⟩
    · exact h.2 d hd
    · exact ⟨ha, hv⟩

theorem Memory.wf_nil : Memory.wf [] := by simp [Memory.wf]

theorem memWrite_wf {s : State} (a v : Word) (h : Memory.wf s.mem) : Memory.wf (memWrite a v s).mem :=
  Memory.set_wf v h a.isLt

theorem memWrite_word_same {s : State} (h : Memory.wf s.mem) (a v : Word) : (memWrite a v s).word a = v :=
  Memory.get_set_same h a.toNat v

theorem memWrite_word_other (s : State) {a b : Word} (v : Word) (h : b ≠ a) :
    (memWrite a v s).word b = s.word b :=
  Memory.get_set_other s.mem v (fun e => h (BitVec.eq_of_toNat_eq e))

/-! `MemRead`. -/

@[simp] theorem memRead_fst (a : Word) (s : State) : (memRead a s).1 = s.reads a := rfl

@[simp] theorem memRead_snd (a : Word) (s : State) : (memRead a s).2 = s.send (s.readSignals a) := rfl

theorem State.reads_other {s : State} {a : Word} (h : a ≠ s.cfg.kbsrAddr) : s.reads a = s.word a := by
  simp [State.reads, h]

theorem State.reads_stored {s : State} (a : Word) (h : s.cfg.kbsrReadPolicy = .stored) : s.reads a = s.word a := by
  simp [State.reads, h]

/-! The loader's writes. -/

theorem writeWords_wf {ws : List Word} {base : Nat} {m : Memory} (h : Memory.wf m)
    (hb : base + ws.length ≤ 65536) : Memory.wf (writeWords base ws m) := by
  induction ws generalizing base m with
  | nil => exact h
  | cons w ws ih =>
    simp only [List.length_cons] at hb
    exact ih (Memory.set_wf w h (by omega)) (by omega)

theorem writeWords_get_below {ws : List Word} {base a : Nat} {m : Memory} (h : a < base) :
    (writeWords base ws m).get a = m.get a := by
  induction ws generalizing base m with
  | nil => rfl
  | cons w ws ih =>
    simp only [writeWords]
    rw [ih (by omega), Memory.get_set_other _ _ (by omega)]

/-! Flags. -/

theorem condOf_eq (v : Word) :
    condOf v = if v.toNat = 0 then 0b010 else if v.toNat < 32768 then 0b001 else 0b100 := by
  have h0 : v = 0 ↔ v.toNat = 0 := by simp [← BitVec.toNat_inj]
  have h15 : v.getLsbD 15 = true ↔ ¬v.toNat < 32768 := by
    have h : v.getLsbD 15 = v.msb := rfl
    rw [h, BitVec.msb_eq_decide]; simp
  simp only [condOf, condZero, condNegative, condPositive, h0, h15]
  split <;> [rfl; (split <;> simp_all)]

/-! Extensions and effective addresses. -/

theorem sext_toNat {n : Nat} (v : BitVec n) (h : n ≤ 15) :
    (sext v).toNat = if v.msb then v.toNat + (65536 - 2 ^ n) else v.toNat := by
  have hp : 2 ^ n ≤ 2 ^ 15 := Nat.pow_le_pow_right (by decide) h
  have hv := v.isLt
  have hm : v.toNat % 65536 = v.toNat := Nat.mod_eq_of_lt (by omega)
  by_cases hb : v.msb
  · simp only [sext, hb, if_true, BitVec.toNat_add, BitVec.toNat_setWidth, BitVec.toNat_ofNat]
    have h2 : (65536 - 2 ^ n) % 65536 = 65536 - 2 ^ n := Nat.mod_eq_of_lt (by have := Nat.two_pow_pos n; omega)
    norm_num
    omega
  · simp [sext, hb, hm]

theorem pcRelative_eq {n : Nat} (s : State) (off : BitVec n) : pcRelative s off = s.pc + sext off := rfl

theorem baseOffset_eq (s : State) (b : RegIdx) (off : BitVec 6) : baseOffset s b off = s.reg b + sext off := rfl

end Sys2Proof.Machine
end

