-- ==== Sys2Proof/Laws/Trap.lean ====
section
/-! SUPPORT. What the shared operations of the trap routines do, said once: the string walk and the
decimal numeral. -/

namespace Sys2Proof.Machine
open Sys2Proof.Safety

/-! Signals. -/

@[simp] theorem State.send_nil (s : State) : s.send [] = s := by simp [State.send]

@[simp] theorem State.send_send (s : State) (l m : List Signal) : (s.send l).send m = s.send (l ++ m) := by
  simp [State.send]

/-! The string walk (R98, R100). -/

/-- What the walk sends for the `k` words from `a` on: each word's read signal, then its characters. -/
def walkSignals (chars : Word → List Byte) (a : Word) (s : State) (k : Nat) : List Signal :=
  (List.range k).flatMap fun i =>
    s.readSignals (a + BitVec.ofNat 16 i) ++ (chars (s.reads (a + BitVec.ofNat 16 i))).map Signal.conOut

theorem add_ofNat_succ (a : Word) (i : Nat) : a + BitVec.ofNat 16 (i + 1) = a + 1 + BitVec.ofNat 16 i := by
  apply BitVec.eq_of_toNat_eq; simp; omega

theorem walkSignals_succ (chars : Word → List Byte) (a : Word) (s : State) (k : Nat) :
    walkSignals chars a s (k + 1) =
      s.readSignals a ++ (chars (s.reads a)).map Signal.conOut ++ walkSignals chars (a + 1) s k := by
  simp only [walkSignals, List.range_succ_eq_map, List.flatMap_cons, List.flatMap_map, add_ofNat_succ]
  rw [show a + BitVec.ofNat 16 0 = a by simp]

theorem putString_succ (chars : Word → List Byte) (fuel : Nat) (a : Word) (s : State) :
    putString chars (fuel + 1) a s =
      if s.reads a = 0 then (true, s.send (s.readSignals a))
      else putString chars fuel (a + 1) (s.send (s.readSignals a ++ (chars (s.reads a)).map Signal.conOut)) := by
  simp [putString]

/-- The walk passes over words that are not zero, and sends what belongs to them. -/
theorem putString_add (chars : Word → List Byte) (k fuel : Nat) {a : Word} {s : State}
    (hne : ∀ i, i < k → s.reads (a + BitVec.ofNat 16 i) ≠ 0) :
    putString chars (k + fuel) a s =
      putString chars fuel (a + BitVec.ofNat 16 k) (s.send (walkSignals chars a s k)) := by
  induction k generalizing a s with
  | zero => simp [walkSignals]
  | succ k ih =>
    have h0 : s.reads a ≠ 0 := by simpa using hne 0 (by omega)
    rw [show k + 1 + fuel = k + fuel + 1 by omega, putString_succ, if_neg h0,
      ih (fun i hi => by rw [State.send_reads, ← add_ofNat_succ]; exact hne (i + 1) (by omega))]
    simp only [State.send_send, walkSignals_succ, add_ofNat_succ]
    rfl

/-- With the first zero word at distance `k`, the walk sends what belongs to the `k` words before it, reads the zero word,
and does nothing else. -/
theorem putString_of_zero (chars : Word → List Byte) {k fuel : Nat} {a : Word} {s : State} (hk : k < fuel)
    (hne : ∀ i, i < k → s.reads (a + BitVec.ofNat 16 i) ≠ 0) (hz : s.reads (a + BitVec.ofNat 16 k) = 0) :
    putString chars fuel a s =
      (true, s.send (walkSignals chars a s k ++ s.readSignals (a + BitVec.ofNat 16 k))) := by
  obtain ⟨n, rfl⟩ : ∃ n, fuel = k + (n + 1) := ⟨fuel - k - 1, by omega⟩
  rw [putString_add _ _ _ hne, putString_succ, State.send_reads, if_pos hz]
  simp

/-- Without a zero word among the `fuel` words, the walk sends what belongs to all of them and is not at an end. -/
theorem putString_of_no_zero (chars : Word → List Byte) {fuel : Nat} {a : Word} {s : State}
    (hne : ∀ i, i < fuel → s.reads (a + BitVec.ofNat 16 i) ≠ 0) :
    putString chars fuel a s = (false, s.send (walkSignals chars a s fuel)) := by
  simpa [putString] using putString_add chars fuel 0 hne

theorem walkSignals_add (chars : Word → List Byte) (a : Word) (s : State) (m n : Nat) :
    walkSignals chars a s (m + n) = walkSignals chars a s m ++ walkSignals chars (a + BitVec.ofNat 16 m) s n := by
  have h (i : Nat) : a + BitVec.ofNat 16 (m + i) = a + BitVec.ofNat 16 m + BitVec.ofNat 16 i := by
    apply BitVec.eq_of_toNat_eq; simp; omega
  simp only [walkSignals, List.range_add, List.flatMap_append, List.flatMap_map, h]

/-- After a turn round the ring of memory the walk sends the same again. -/
theorem walkSignals_turns (chars : Word → List Byte) (a : Word) (s : State) (k : Nat) :
    walkSignals chars a s (65536 * k) = (List.replicate k (walkSignals chars a s 65536)).flatten := by
  induction k with
  | zero => rfl
  | succ k ih =>
    have h : a + BitVec.ofNat 16 65536 = a := by apply BitVec.eq_of_toNat_eq; simp
    rw [show 65536 * (k + 1) = 65536 + 65536 * k by omega, walkSignals_add, h, ih, List.replicate_succ,
      List.flatten_cons]

/-- All that a walk can do: it ends at the first zero word, or no word reads as zero and its turn is sent for ever. -/
theorem putStringFrom_cases (chars : Word → List Byte) (a : Word) (s : State) :
    (∃ k, k < 65536 ∧ (∀ i, i < k → s.reads (a + BitVec.ofNat 16 i) ≠ 0) ∧ s.reads (a + BitVec.ofNat 16 k) = 0 ∧
      putStringFrom chars a s =
        .next (s.send (walkSignals chars a s k ++ s.readSignals (a + BitVec.ofNat 16 k)))) ∨
    ((∀ b : Word, s.reads b ≠ 0) ∧
      putStringFrom chars a s = .fault (.stringNeverEnds s.signals (walkSignals chars a s 65536))) := by
  by_cases h : ∃ k, k < 65536 ∧ s.reads (a + BitVec.ofNat 16 k) = 0
  · classical
    have hm := Nat.find_spec h
    have hne : ∀ i, i < Nat.find h → s.reads (a + BitVec.ofNat 16 i) ≠ 0 :=
      fun i hi hz => Nat.find_min h hi ⟨by omega, hz⟩
    exact .inl ⟨_, hm.1, hne, hm.2, by simp only [putStringFrom, putString_of_zero chars hm.1 hne hm.2]⟩
  · push Not at h
    refine .inr ⟨fun b => ?_, by simp [putStringFrom, putString_of_no_zero chars h]⟩
    have := h (b - a).toNat (b - a).isLt
    rwa [BitVec.ofNat_toNat, BitVec.setWidth_eq, BitVec.add_comm, BitVec.sub_add_cancel] at this

/-! The decimal numeral (R103). -/

theorem numeralValue_append (l : List Nat) (d : Nat) : numeralValue (l ++ [d]) = 10 * numeralValue l + d := by
  simp [numeralValue]

/-- The numeral of a number that `fuel` digits can hold: its digits, its value, its length, no leading zero. -/
theorem decimalDigits_spec {fuel n : Nat} (h : n < 10 ^ fuel) (hf : 0 < fuel) :
    (∀ d ∈ decimalDigits fuel n, d < 10) ∧ numeralValue (decimalDigits fuel n) = n ∧
    1 ≤ (decimalDigits fuel n).length ∧ (decimalDigits fuel n).length ≤ fuel ∧
    ((decimalDigits fuel n).head? = some 0 → decimalDigits fuel n = [0]) := by
  induction fuel generalizing n with
  | zero => omega
  | succ fuel ih =>
    by_cases hn : n < 10
    · simp [decimalDigits, hn, numeralValue]
    · have hf' : 0 < fuel := by
        rcases Nat.eq_zero_or_pos fuel with rfl | h'
        · simp at h; omega
        · exact h'
      obtain ⟨h1, h2, h3, h4, h5⟩ := ih (n := n / 10) (by rw [pow_succ] at h; omega) hf'
      simp only [decimalDigits, hn, if_false]
      refine ⟨?_, ?_, ?_, ?_, ?_⟩
      · intro d hd
        rcases List.mem_append.1 hd with hd | hd
        · exact h1 d hd
        · simp at hd; omega
      · rw [numeralValue_append, h2]; omega
      · simp
      · simp; omega
      · intro hh
        exfalso
        have hne : decimalDigits fuel (n / 10) ≠ [] := by intro e; simp [e] at h3
        rw [List.head?_append_of_ne_nil _ hne] at hh
        have := h5 hh
        rw [this] at h2
        simp [numeralValue] at h2
        omega

theorem decimalDigits_word (n : Word) :
    (∀ d ∈ decimalDigits 5 n.toNat, d < 10) ∧ numeralValue (decimalDigits 5 n.toNat) = n.toNat ∧
    1 ≤ (decimalDigits 5 n.toNat).length ∧ (decimalDigits 5 n.toNat).length ≤ 5 ∧
    ((decimalDigits 5 n.toNat).head? = some 0 → decimalDigits 5 n.toNat = [0]) :=
  decimalDigits_spec (by have := n.isLt; omega) (by decide)

end Sys2Proof.Machine
end

