-- ==== Sys2Proof/Laws/Frames.lean ====
section
/-! SUPPORT. The machine's arithmetic against the spec's arithmetic on numbers (Safety.lean), and the frame of each shared
operation, said once. -/

namespace Sys2Proof
open Sys2Proof.Machine Sys2Proof.Safety

/-! Numbers. -/

theorem sext_toNat_eq_sextNat {n : Nat} (v : BitVec n) (h : n ≤ 15) :
    (sext v).toNat = sextNat n v.toNat := by
  rw [sext_toNat v h, sextNat, BitVec.msb_eq_decide]; simp

theorem add_sext_eq_wrap {n : Nat} (v : BitVec n) (h : n ≤ 15) (w : Word) :
    w + sext v = wrap (w.toNat + sextNat n v.toNat) := by
  apply BitVec.eq_of_toNat_eq
  simp [wrap, sext_toNat_eq_sextNat v h]

theorem wrap_add (w : Word) (i : Nat) : wrap (w.toNat + i) = w + BitVec.ofNat 16 i := by
  apply BitVec.eq_of_toNat_eq; simp [wrap]

theorem bits_and (k : Nat) (a b : Word) : bits k k (a &&& b) = bits k k a * bits k k b := by
  have key : ∀ v : Word, bits k k v = (v.toNat.testBit k).toNat := by
    intro v
    simp only [bits, Nat.testBit_eq_decide_div_mod_eq, Bool.toNat, show k + 1 - k = 1 by omega]
    rcases Nat.mod_two_eq_zero_or_one (v.toNat / 2 ^ k) with h | h <;> simp [h]
  rw [key, key, key, BitVec.toNat_and, Nat.testBit_and]
  cases a.toNat.testBit k <;> cases b.toNat.testBit k <;> rfl

theorem imm5_eq_field (ir : Word) : BitVec.ofNat 5 (bits 4 0 ir) = field 0 5 ir := ofNat_bits_eq_field 5 0 4 ir rfl
theorem offset6_eq_field (ir : Word) : BitVec.ofNat 6 (bits 5 0 ir) = field 0 6 ir := ofNat_bits_eq_field 6 0 5 ir rfl
theorem offset9_eq_field (ir : Word) : BitVec.ofNat 9 (bits 8 0 ir) = field 0 9 ir := ofNat_bits_eq_field 9 0 8 ir rfl
theorem offset11_eq_field (ir : Word) : BitVec.ofNat 11 (bits 10 0 ir) = field 0 11 ir :=
  ofNat_bits_eq_field 11 0 10 ir rfl
theorem vector8_eq_field (ir : Word) : BitVec.ofNat 8 (bits 7 0 ir) = field 0 8 ir := ofNat_bits_eq_field 8 0 7 ir rfl

theorem lowByte_eq_bits (w : Word) : BitVec.ofNat 8 (bits 7 0 w) = lowByte w := ofNat_bits_eq_field 8 0 7 w rfl
theorem highByte_eq_bits (w : Word) : BitVec.ofNat 8 (bits 15 8 w) = highByte w := ofNat_bits_eq_field 8 8 15 w rfl

theorem highByte_eq_zero_iff (w : Word) : highByte w = 0 ↔ bits 15 8 w = 0 := by
  rw [← highByte_eq_bits, ← BitVec.toNat_inj]
  have := bits_lt 15 8 w
  simp at *; omega

theorem field_eq_iff_bits (ir : Word) (k : Nat) (hk : k < 256) : field 0 8 ir = BitVec.ofNat 8 k ↔ bits 7 0 ir = k := by
  rw [← vector8_eq_field, ← BitVec.toNat_inj]
  have := bits_lt 7 0 ir
  simp at *; omega

/-! Flags. -/

theorem condOf_oneFlag (v : Word) : oneFlag (condOf v) := by
  unfold condOf oneFlag condZero condNegative condPositive
  split <;> [skip; split] <;> simp

/-! Frames of the shared operations. -/

theorem writeDest_frame (d : RegIdx) (v : Word) (s : State) : OnlyDestAndFlags d s (writeDest d v s) :=
  ⟨fun _ h => writeDest_reg_other s v h, rfl, fun _ => rfl, ⟨rfl, rfl⟩, rfl⟩

theorem loadFrom_frame (d : RegIdx) (ea : Word) (s : State) : OnlyDestAndFlags d s (loadFrom d ea s) :=
  ⟨fun _ h => writeDest_reg_other _ _ h, rfl, fun _ => rfl, ⟨rfl, rfl⟩, rfl⟩

theorem memWrite_frame (a v : Word) (s : State) : OnlyWordAt a s (memWrite a v s) :=
  ⟨fun _ hb => memWrite_word_other s v hb, fun _ => rfl, rfl, rfl, ⟨rfl, rfl⟩, rfl⟩

theorem send_frame (s : State) (l : List Signal) : OnlySignals s (s.send l) :=
  ⟨fun _ => rfl, rfl, rfl, fun _ => rfl, ⟨rfl, rfl⟩, rfl⟩

/-! The console output of signals. -/

theorem readSignals_chars (s : State) (a : Word) : (s.readSignals a).filterMap Signal.char? = [] := by
  simp only [State.readSignals]; split <;> rfl

theorem conOut_chars (l : List Byte) : (l.map Signal.conOut).filterMap Signal.char? = l := by
  induction l <;> simp_all [Signal.char?]

theorem send_output (s : State) (l : List Signal) :
    (s.send l).output = s.output ++ l.filterMap Signal.char? := by
  simp [State.output]

theorem output_congr {s t : State} (h : t.signals = s.signals) : t.output = s.output := by
  simp [State.output, h]

theorem walkSignals_chars (chars : Word → List Byte) (a : Word) (s : State) (k : Nat) :
    (walkSignals chars a s k).filterMap Signal.char? =
      (List.range k).flatMap fun i => chars (s.reads (a + BitVec.ofNat 16 i)) := by
  induction k with
  | zero => rfl
  | succ k ih =>
    have h : walkSignals chars a s (k + 1) = walkSignals chars a s k ++
        (s.readSignals (a + BitVec.ofNat 16 k) ++
          (chars (s.reads (a + BitVec.ofNat 16 k))).map Signal.conOut) := by
      simp [walkSignals, List.range_succ]
    rw [h, List.filterMap_append, ih, List.filterMap_append, readSignals_chars, conOut_chars, List.range_succ,
      List.flatMap_append]
    simp

/-! The walk of a string. -/

/-- A walk that ends has sent the signals of its words, then those of the zero word's read. -/
theorem putStringFrom_next {chars : Word → List Byte} {a : Word} {s t : State}
    (h : putStringFrom chars a s = .next t) :
    ∃ k l, t = s.send (walkSignals chars a s k ++ l) ∧ l.filterMap Signal.char? = [] := by
  rcases putStringFrom_cases chars a s with ⟨k, -, -, -, hk⟩ | ⟨-, hk⟩ <;> rw [hk] at h <;> cases h
  exact ⟨k, _, rfl, readSignals_chars _ _⟩

/-- A walk does not look at the console input. -/
theorem putString_setInput (chars : Word → List Byte) (fuel : Nat) (a : Word) (s : State) (l : ConsoleInput) :
    putString chars fuel a (s.setInput l) =
      ((putString chars fuel a s).1, (putString chars fuel a s).2.setInput l) := by
  induction fuel generalizing a s with
  | zero => rfl
  | succ n ih =>
    rw [putString_succ, putString_succ, State.setInput_reads]
    split
    · rfl
    · exact ih (a + 1) (s.send (s.readSignals a ++ (chars (s.reads a)).map Signal.conOut))

/-! Loading an image. -/

theorem writeWords_get {ws : List Word} {base : Nat} {m : Memory} (hm : Memory.wf m)
    (hb : base + ws.length ≤ 65536) (i : Nat) (h : i < ws.length) :
    (writeWords base ws m).get (base + i) = ws[i] := by
  induction ws generalizing base m i with
  | nil => simp at h
  | cons w ws ih =>
    simp only [List.length_cons] at h hb
    simp only [writeWords]
    cases i with
    | zero => rw [writeWords_get_below (by omega)]; simpa using Memory.get_set_same hm base w
    | succ i =>
      have := ih (base := base + 1) (m := m.set base w) (Memory.set_wf w hm (by omega)) (by omega) i (by omega)
      rw [show base + (i + 1) = base + 1 + i by omega, this]; rfl

theorem writeWords_get_above {ws : List Word} {base a : Nat} {m : Memory} (h : base + ws.length ≤ a) :
    (writeWords base ws m).get a = m.get a := by
  induction ws generalizing base m with
  | nil => rfl
  | cons w ws ih =>
    simp only [List.length_cons] at h
    simp only [writeWords]
    rw [ih (by omega), Memory.get_set_other _ _ (by omega)]

end Sys2Proof
end

