-- ==== Sys2Proof/Laws/Parse.lean ====
section
/-! SUPPORT. What `ParseU16` finds, said once: the default grammar is decided by the unread characters alone, whatever shape
the input has, and every grammar consumes from the front. -/

namespace Sys2Proof.Machine
open Sys2Proof.Safety

/-! Lists. -/

theorem decimalValue_digits {digits : List Nat} (h : ∀ d ∈ digits, d < 10) :
    decimalValue (digits.map digitChar) = numeralValue digits := by
  have key : ∀ n, (digits.map digitChar).foldl (fun n c => 10 * n + (c.toNat - 0x30)) n =
      digits.foldl (fun n d => 10 * n + d) n := by
    induction digits with
    | nil => intro n; rfl
    | cons d ds ih =>
      intro n
      simp only [List.map_cons, List.foldl_cons, digitChar_value (h d (by simp))]
      exact ih (fun e he => h e (by simp [he])) _
  exact key 0

theorem dropWhile_append_of_all {α : Type} {p : α → Bool} {l m : List α} (h : ∀ x ∈ l, p x = true) :
    (l ++ m).dropWhile p = m.dropWhile p := by
  induction l with
  | nil => rfl
  | cons x l ih => simp [h x (by simp), ih (fun y hy => h y (by simp [hy]))]

theorem takeWhile_append_of_all {α : Type} {p : α → Bool} {l m : List α} (h : ∀ x ∈ l, p x = true) :
    (l ++ m).takeWhile p = l ++ m.takeWhile p := by
  induction l with
  | nil => rfl
  | cons x l ih => simp [h x (by simp), ih (fun y hy => h y (by simp [hy]))]

/-! The default grammar on a text. -/

/-- A text of blanks, then a run of digits, then text that does not begin with a digit; where the run is empty, it does not
begin with a blank either. -/
theorem parseText_eq {lead rest : List Byte} {digits : List Nat} (hl : ∀ c ∈ lead, isBlank c = true)
    (hd : ∀ d ∈ digits, d < 10) (hr : ∀ c ∈ rest.head?, isDigit c = false)
    (hb : digits = [] → ∀ c ∈ rest.head?, isBlank c = false) :
    parseText (lead ++ digits.map digitChar ++ rest) =
      (if digits = [] ∧ rest = [] then .onlyBlanks
      else if digits = [] ∨ 65535 < numeralValue digits then .bad rest
      else .number (BitVec.ofNat 16 (numeralValue digits)) rest) ∧
    endsInside (lead ++ digits.map digitChar ++ rest) = !rest.isEmpty := by
  have hall : ∀ c ∈ digits.map digitChar, isDigit c = true := by
    intro c hc
    obtain ⟨d, hdm, rfl⟩ := List.mem_map.1 hc
    exact isDigit_digitChar (hd d hdm)
  have htext : (lead ++ digits.map digitChar ++ rest).dropWhile isBlank = digits.map digitChar ++ rest := by
    rw [List.append_assoc, dropWhile_append_of_all hl]
    cases digits with
    | nil =>
      cases rest with
      | nil => rfl
      | cons c rest => simp [hb rfl c (by simp)]
    | cons d ds => simp [isBlank_of_digit (hall (digitChar d) (by simp))]
  have hrest : rest.takeWhile isDigit = [] ∧ rest.dropWhile isDigit = rest := by
    cases rest with
    | nil => simp
    | cons c rest => simp [hr c (by simp)]
  simp only [parseText, endsInside, htext, takeWhile_append_of_all hall, dropWhile_append_of_all hall, hrest.1, hrest.2,
    List.append_nil, decimalValue_digits hd, List.append_eq_nil_iff, List.map_eq_nil_iff, and_self]

theorem digits_of_isDigit {l : List Byte} (hl : ∀ c ∈ l, isDigit c = true) :
    ∃ ds : List Nat, l = ds.map digitChar ∧ ∀ d ∈ ds, d < 10 := by
  induction l with
  | nil => exact ⟨[], rfl, by simp⟩
  | cons c l ih =>
    obtain ⟨ds, rfl, h⟩ := ih (fun x hx => hl x (by simp [hx]))
    obtain ⟨d, hd, rfl⟩ := (isDigit_iff c).1 (hl c (by simp))
    exact ⟨d :: ds, rfl, by simpa using ⟨hd, h⟩⟩

/-- Every text is of that form. -/
theorem text_split (text : List Byte) : ∃ (lead rest : List Byte) (digits : List Nat),
    text = lead ++ digits.map digitChar ++ rest ∧ (∀ c ∈ lead, isBlank c = true) ∧ (∀ d ∈ digits, d < 10) ∧
    (∀ c ∈ rest.head?, isDigit c = false) ∧ (digits = [] → ∀ c ∈ rest.head?, isBlank c = false) := by
  have hhead : ∀ (p : Byte → Bool) (l : List Byte), ∀ c ∈ (l.dropWhile p).head?, p c = false := by
    intro p l c hc
    induction l with
    | nil => simp at hc
    | cons x l ih =>
      by_cases hx : p x = true
      · simp [hx] at hc; exact ih (by simpa using hc)
      · simp [hx] at hc; subst hc; simpa using hx
  obtain ⟨ds, hds, hlt⟩ := digits_of_isDigit (fun c hc => List.mem_takeWhile_imp (l := text.dropWhile isBlank) (p := isDigit) hc)
  refine ⟨text.takeWhile isBlank, (text.dropWhile isBlank).dropWhile isDigit, ds, ?_, fun c hc => List.mem_takeWhile_imp hc,
    hlt, hhead _ _, ?_⟩
  · rw [← hds, List.append_assoc, List.takeWhile_append_dropWhile, List.takeWhile_append_dropWhile]
  · rintro rfl c hc
    have : (text.dropWhile isBlank).dropWhile isDigit = text.dropWhile isBlank := by
      have h := List.takeWhile_append_dropWhile (p := isDigit) (l := text.dropWhile isBlank)
      rw [hds] at h; simpa using h
    rw [this] at hc
    exact hhead _ _ c hc

theorem endsInside_eq_false {text : List Byte} (h : endsInside text = false) : ∃ (lead : List Byte) (digits : List Nat),
    text = lead ++ digits.map digitChar ∧ (∀ c ∈ lead, isBlank c = true) ∧ ∀ d ∈ digits, d < 10 := by
  obtain ⟨lead, rest, digits, rfl, hl, hd, hr, hb⟩ := text_split text
  rw [(parseText_eq hl hd hr hb).2] at h
  cases rest with
  | nil => exact ⟨lead, digits, by simp, hl, hd⟩
  | cons c rest => simp at h

/-- Blanks, then digits, up to the end: what is found, and that the run does not end inside. -/
theorem parseText_blanks_digits {lead : List Byte} {digits : List Nat} (hl : ∀ c ∈ lead, isBlank c = true)
    (hd : ∀ d ∈ digits, d < 10) :
    parseText (lead ++ digits.map digitChar) =
      (if digits = [] then .onlyBlanks
      else if 65535 < numeralValue digits then .bad []
      else .number (BitVec.ofNat 16 (numeralValue digits)) []) ∧
    endsInside (lead ++ digits.map digitChar) = false := by
  have h := parseText_eq (rest := []) hl hd (by simp) (by simp)
  simp only [List.append_nil, and_true, List.isEmpty_nil, Bool.not_true] at h
  refine ⟨?_, h.2⟩
  rw [h.1]
  split <;> simp [*]

/-- A part from the front of blanks and digits is blanks and digits. -/
theorem endsInside_take {lead : List Byte} {digits : List Nat} (hl : ∀ c ∈ lead, isBlank c = true)
    (hd : ∀ d ∈ digits, d < 10) (k : Nat) : endsInside ((lead ++ digits.map digitChar).take k) = false := by
  rw [List.take_append, ← List.map_take]
  exact (parseText_blanks_digits (fun c hc => hl c (List.mem_of_mem_take hc))
    (fun d hd' => hd d (List.mem_of_mem_take hd'))).2

/-- A text that a piece continues ends in the piece at the latest. -/
theorem endsInside_piece (text : List Byte) (p : InputPiece) : endsInside (text ++ pieceText p) = true := by
  by_contra hc
  obtain ⟨lead, digits, h, hl, hd⟩ := endsInside_eq_false (by simpa using hc)
  have hlast : (lead ++ digits.map digitChar).getLast? = some (pieceStop p) := by rw [← h]; simp [pieceText]
  rcases List.eq_nil_or_concat digits with rfl | ⟨ds, d, rfl⟩
  · simp only [List.map_nil, List.append_nil] at h hlast
    have hp : p.digits = [] := by
      by_contra hne
      obtain ⟨d, ds, hds⟩ := List.exists_cons_of_ne_nil hne
      have hb := hl (digitByte d) (by rw [← h]; simp [pieceText, hds])
      rw [isBlank_of_digit (isDigit_digitByte d)] at hb
      cases hb
    have := hl _ (List.mem_of_getLast? hlast)
    rw [isBlank_pieceStop hp] at this
    cases this
  · have hs : digitChar d = pieceStop p := by simpa using hlast
    have := isDigit_digitChar (hd d (by simp))
    rw [hs, isDigit_pieceStop] at this
    cases this

/-! The default grammar on an input, by its unread characters. -/

/-- What a listing of the input holds from the front, where the input begins with `l`. -/
theorem text_eq_take {i : ConsoleInput} {text : List Byte} {tail : InputTail} {l : List Byte}
    (hi : ∀ n, unread ⟨text, tail⟩ n = unread i n) (hl : Begins i l) (h : text.length ≤ l.length) :
    text = l.take text.length := by
  apply List.ext_getElem?
  intro n
  by_cases hn : n < text.length
  · rw [List.getElem?_take_of_lt hn, ← hl n (by omega), ← hi n, unread_text (i := ⟨text, tail⟩) hn]
  · rw [List.getElem?_eq_none (by omega), List.getElem?_eq_none (by rw [List.length_take]; omega)]

theorem text_eq_append {i : ConsoleInput} {text : List Byte} {tail : InputTail} {l : List Byte}
    (hi : ∀ n, unread ⟨text, tail⟩ n = unread i n) (hl : Begins i l) (h : l.length ≤ text.length) :
    text = l ++ text.drop l.length := by
  have ht : text.take l.length = l := by
    apply List.ext_getElem?
    intro n
    by_cases hn : n < l.length
    · rw [List.getElem?_take_of_lt hn, ← hl n hn, ← hi n, unread_text (i := ⟨text, tail⟩) (by simpa using by omega)]
    · rw [List.getElem?_eq_none (by rw [List.length_take]; omega), List.getElem?_eq_none (by omega)]
  conv_lhs => rw [← List.take_append_drop l.length text, ht]

/-- The default grammar: after blanks and a run of digits, where the run ends. -/
theorem parseDecimal_eq {i : ConsoleInput} {lead : List Byte} {digits : List Nat} (hl : ∀ c ∈ lead, isBlank c = true)
    (hd : ∀ d ∈ digits, d < 10) (hi : Begins i (lead ++ digits.map digitChar))
    (hstop : noDigitAt i (lead.length + digits.length))
    (hb : digits = [] → ∃ c, unread i (lead.length + digits.length) = some c ∧ isBlank c = false) :
    ∃ j, Leaves i (lead.length + digits.length) j ∧ parseDecimal i =
      if digits = [] ∨ 65535 < numeralValue digits then .bad j
      else .number (BitVec.ofNat 16 (numeralValue digits)) j := by
  have hlen : (lead ++ digits.map digitChar).length = lead.length + digits.length := by simp
  rw [← hlen] at hstop hb ⊢
  -- a listing of the input that goes beyond the run of digits
  have inside : ∀ (text : List Byte) (tail : InputTail), (∀ n, unread ⟨text, tail⟩ n = unread i n) →
      (lead ++ digits.map digitChar).length < text.length →
      endsInside text = true ∧ ∃ j, Leaves i (lead ++ digits.map digitChar).length j ∧ (parseText text).before tail =
        if digits = [] ∨ 65535 < numeralValue digits then .bad j
        else .number (BitVec.ofNat 16 (numeralValue digits)) j := by
    intro text tail ht hlt
    have hsplit := text_eq_append ht hi (by omega)
    have hleaves := unread_drop (text := text) (tail := tail) hlt.le
    set k := (lead ++ digits.map digitChar).length with hk
    set rest := text.drop k with hrest
    have hhead : ∀ c ∈ rest.head?, unread i k = some c := by
      intro c hc
      rw [← ht k, unread_text (i := ⟨text, tail⟩) hlt]
      simpa [hrest, List.head?_drop] using hc
    have hne : rest ≠ [] := by simp [hrest, hlt]
    have hp := parseText_eq (rest := rest) hl hd
      (fun c hc => (isDigit_eq_false_iff c).2 (hstop c (hhead c hc)))
      (fun h c hc => by obtain ⟨c', h1, h2⟩ := hb h; rw [hhead c hc] at h1; cases h1; exact h2)
    rw [← hsplit] at hp
    refine ⟨by rw [hp.2]; simpa using hne, ⟨rest, tail⟩, fun m => by rw [hleaves m, ht], ?_⟩
    rw [hp.1]
    simp only [hne, and_false, if_false]
    split <;> rfl
  have hself : ∀ n, unread ⟨i.text, i.tail⟩ n = unread i n := fun n => rfl
  have hnot : i.text.length ≤ (lead ++ digits.map digitChar).length → endsInside i.text = false := fun h => by
    rw [text_eq_take hself hi h]; exact endsInside_take hl hd _
  -- a run of digits that reaches the end of the listed text, where no digit follows
  have atEnd : digits ≠ [] → i.text.length = (lead ++ digits.map digitChar).length →
      ∃ j, Leaves i (lead ++ digits.map digitChar).length j ∧ (parseText i.text).before i.tail =
        if digits = [] ∨ 65535 < numeralValue digits then .bad j
        else .number (BitVec.ofNat 16 (numeralValue digits)) j := by
    intro hne hle
    have ht := text_eq_take hself hi hle.le
    rw [hle, List.take_length] at ht
    refine ⟨⟨[], i.tail⟩, ?_, ?_⟩
    · have := unread_drop (text := i.text) (tail := i.tail) hle.ge
      rwa [← hle, List.drop_length, hle] at this
    · rw [ht, (parseText_blanks_digits hl hd).1]
      simp only [hne, false_or, if_false]
      split <;> rfl
  unfold parseDecimal
  by_cases hlt : (lead ++ digits.map digitChar).length < i.text.length
  · have h := inside i.text i.tail hself hlt
    cases ht : i.tail <;> rw [ht] at h <;> simp only [h.1, if_true] <;> exact h.2
  · have hle : i.text.length ≤ (lead ++ digits.map digitChar).length := by omega
    have hchar : ∀ n, i.text.length ≤ n → unread i n = tailChar i.tail (n - i.text.length) := fun n hn =>
      if_neg (by omega)
    -- the last digit of the run is listed, where the tail holds no digit
    have hexact : digits ≠ [] → (∀ m c, tailChar i.tail m = some c → isDigit c = false) →
        i.text.length = (lead ++ digits.map digitChar).length := by
      intro hne hnd
      by_contra hc
      obtain ⟨ds, d, rfl⟩ : ∃ ds d, digits = ds ++ [d] := by
        rcases List.eq_nil_or_concat digits with h | ⟨ds, d, h⟩
        · exact absurd h hne
        · exact ⟨ds, d, by simpa using h⟩
      have hlast := hi ((lead ++ (ds ++ [d]).map digitChar).length - 1) (by simp)
      rw [hchar _ (by omega)] at hlast
      have he : (lead ++ (ds ++ [d]).map digitChar)[(lead ++ (ds ++ [d]).map digitChar).length - 1]? = some (digitChar d) := by
        rw [← List.getLast?_eq_getElem?]; simp
      rw [he] at hlast
      have := hnd _ _ hlast
      rw [isDigit_digitChar (hd d (by simp))] at this
      cases this
    cases ht : i.tail with
    | ended =>
      have hne : digits ≠ [] := fun h => by
        obtain ⟨c, hc, -⟩ := hb h
        rw [unread_ended ht hle] at hc; cases hc
      have := atEnd hne (hexact hne (fun m c h => by rw [ht] at h; cases h))
      simpa only [ht] using this
    | blanks next =>
      have hne : digits ≠ [] := fun h => by
        obtain ⟨c, hc, hcb⟩ := hb h
        rw [hchar _ hle, ht, tailChar] at hc
        cases hc
        rw [isBlank_blankByte] at hcb; cases hcb
      have := atEnd hne (hexact hne (fun m c h => by
        rw [ht] at h; cases h; exact isDigit_of_blank (isBlank_blankByte _)))
      simpa only [ht] using this
    | digits next =>
      exfalso
      have := hstop (digitByte (Config.inputDigit (next + ((lead ++ digits.map digitChar).length - i.text.length))))
        (by rw [hchar _ hle, ht]; rfl)
      rw [← isDigit_eq_false_iff, isDigit_digitByte] at this
      cases this
    | pieces next =>
      simp only [hnot hle, Bool.false_eq_true, if_false]
      have hr : ∀ n, unread ⟨i.text ++ pieceText (Config.inputPiece next), .pieces (next + 1)⟩ n = unread i n := fun n => by
        have := unread_refill i n
        rwa [ht] at this
      refine (inside _ _ hr ?_).2
      by_contra hc
      have := text_eq_take hr hi (by omega)
      have he := endsInside_take hl hd (i.text ++ pieceText (Config.inputPiece next)).length
      rw [← this, endsInside_piece] at he
      cases he

/-! A text that is never complete. -/

theorem blankAt_iff {i : ConsoleInput} {n : Nat} : blankAt i n ↔ ∃ c, unread i n = some c ∧ isBlank c = true := by
  simp only [blankAt, isBlank_iff]
  exact ⟨fun ⟨c, h1, h2⟩ => ⟨c, h2, h1⟩, fun ⟨c, h1, h2⟩ => ⟨c, h2, h1⟩⟩

theorem digitAt_iff {i : ConsoleInput} {n : Nat} : digitAt i n ↔ ∃ c, unread i n = some c ∧ isDigit c = true := by
  simp only [digitAt, isDigit_iff]
  exact ⟨fun ⟨d, h1, h2⟩ => ⟨_, h2, d, h1, rfl⟩, fun ⟨c, h1, d, h2, h3⟩ => ⟨d, h2, h3 ▸ h1⟩⟩

theorem parseText_onlyBlanks {text : List Byte} :
    parseText text = .onlyBlanks ↔ ∀ c ∈ text, isBlank c = true := by
  rw [← List.dropWhile_eq_nil_iff]
  simp only [parseText]
  split
  · simp [*]
  · split <;> simp [*]

theorem endsInside_of_onlyBlanks {text : List Byte} (h : parseText text = .onlyBlanks) : endsInside text = false := by
  rw [parseText_onlyBlanks, ← List.dropWhile_eq_nil_iff] at h
  simp [endsInside, h]

theorem before_unfinished {t : ParsedText} {tail : InputTail} : t.before tail = .unfinished ↔ t = .onlyBlanks := by
  cases t <;> simp [ParsedText.before]

/-- A listing of blanks, then digits, of an input that holds them for ever. -/
theorem endsInside_of_textNeverEnds {i : ConsoleInput} (h : TextNeverEnds i) {text : List Byte} {tail : InputTail}
    (hi : ∀ n, unread ⟨text, tail⟩ n = unread i n) : endsInside text = false := by
  obtain ⟨k, h1, h2⟩ : ∃ k, (∀ n, n < k → n < text.length → blankAt i n) ∧ ∀ n, k ≤ n → n < text.length → digitAt i n := by
    rcases h with h | ⟨k, h1, h2⟩
    · exact ⟨text.length, fun n _ _ => h n, fun n h1 h2 => by omega⟩
    · exact ⟨k, fun n hn _ => h1 n hn, fun n hn _ => h2 n hn⟩
  have hget : ∀ n (hn : n < text.length), unread i n = some text[n] := fun n hn => by
    rw [← hi, unread_text (i := ⟨text, tail⟩) hn]; simp [hn]
  have hb : ∀ c ∈ text.take k, isBlank c = true := by
    intro c hc
    obtain ⟨n, hn, rfl⟩ := List.mem_iff_getElem.1 hc
    rw [List.length_take] at hn
    obtain ⟨c', hc', hbl⟩ := blankAt_iff.1 (h1 n (by omega) (by omega))
    rw [hget n (by omega)] at hc'; cases hc'
    simpa using hbl
  have hd : ∀ c ∈ text.drop k, isDigit c = true := by
    intro c hc
    obtain ⟨n, hn, rfl⟩ := List.mem_iff_getElem.1 hc
    rw [List.length_drop] at hn
    obtain ⟨c', hc', hdg⟩ := digitAt_iff.1 (h2 (k + n) (by omega) (by omega))
    rw [hget (k + n) (by omega)] at hc'; cases hc'
    simpa using hdg
  obtain ⟨ds, hds, hlt⟩ := digits_of_isDigit hd
  rw [← List.take_append_drop k text, hds]
  exact (parseText_blanks_digits hb hlt).2

/-- The default grammar finds no complete text exactly when the input ends in its blanks, or its text never ends. -/
theorem parseDecimal_unfinished {i : ConsoleInput} : parseDecimal i = .unfinished ↔
    (∃ n, unread i n = none ∧ ∀ m, m < n → blankAt i m) ∨ TextNeverEnds i := by
  have hlisted : ∀ m, m < i.text.length → (∀ c ∈ i.text, isBlank c = true) → blankAt i m := fun m hm hb =>
    blankAt_iff.2 ⟨i.text[m], by rw [unread_text hm]; simp [hm], hb _ (List.getElem_mem hm)⟩
  have hbeyond : ∀ n, i.text.length ≤ n → unread i n = tailChar i.tail (n - i.text.length) := fun n hn =>
    if_neg (by omega)
  constructor
  · intro h
    unfold parseDecimal at h
    cases ht : i.tail <;> rw [ht] at h <;> simp only at h
    case ended =>
      have hb := parseText_onlyBlanks.1 (before_unfinished.1 h)
      exact .inl ⟨i.text.length, unread_ended ht le_rfl, fun m hm => hlisted m hm hb⟩
    case blanks next =>
      have hb := parseText_onlyBlanks.1 (before_unfinished.1 h)
      refine .inr (.inl fun n => ?_)
      by_cases hn : n < i.text.length
      · exact hlisted n hn hb
      · exact blankAt_iff.2 ⟨_, by rw [hbeyond n (by omega), ht]; rfl, isBlank_blankByte _⟩
    case digits next =>
      have he : endsInside i.text = false := by
        by_contra hc
        rw [if_pos (by simpa using hc)] at h
        exact hc (endsInside_of_onlyBlanks (before_unfinished.1 h))
      obtain ⟨lead, ds, htext, hl, hd⟩ := endsInside_eq_false he
      refine .inr (.inr ⟨lead.length, fun n hn => ?_, fun n hn => ?_⟩)
      · refine blankAt_iff.2 ⟨lead[n], ?_, hl _ (List.getElem_mem hn)⟩
        rw [unread_text (by rw [htext]; simp; omega), htext, List.getElem?_append_left hn]; simp [hn]
      · by_cases hn' : n < i.text.length
        · have hn'' : n - lead.length < ds.length := by rw [htext] at hn'; simp at hn'; omega
          refine digitAt_iff.2 ⟨digitChar ds[n - lead.length], ?_, isDigit_digitChar (hd _ (List.getElem_mem hn''))⟩
          rw [unread_text hn', htext, List.getElem?_append_right hn]; simp [hn'']
        · exact digitAt_iff.2 ⟨_, by rw [hbeyond n (by omega), ht]; rfl, isDigit_digitByte _⟩
    case pieces next =>
      exfalso
      split at h
      · rename_i he
        rw [endsInside_of_onlyBlanks (before_unfinished.1 h)] at he; cases he
      · have he := endsInside_of_onlyBlanks (before_unfinished.1 h)
        rw [endsInside_piece] at he; cases he
  · rintro (⟨n, hn, hb⟩ | h)
    · obtain ⟨ht, hle⟩ := unread_eq_none hn
      unfold parseDecimal
      simp only [ht]
      rw [before_unfinished, parseText_onlyBlanks]
      intro c hc
      obtain ⟨m, hm, rfl⟩ := List.mem_iff_getElem.1 hc
      obtain ⟨c', hc', h'⟩ := blankAt_iff.1 (hb m (by omega))
      rw [unread_text hm, List.getElem?_eq_getElem hm] at hc'; cases hc'; exact h'
    · have he := endsInside_of_textNeverEnds h (text := i.text) (tail := i.tail) (fun _ => rfl)
      have hsome : ∀ n, unread i n ≠ none := by
        intro n hn
        rcases h with h | ⟨k, h1, h2⟩
        · obtain ⟨c, hc, -⟩ := blankAt_iff.1 (h n); rw [hn] at hc; cases hc
        · by_cases hk : n < k
          · obtain ⟨c, hc, -⟩ := blankAt_iff.1 (h1 n hk); rw [hn] at hc; cases hc
          · obtain ⟨c, hc, -⟩ := digitAt_iff.1 (h2 n (by omega)); rw [hn] at hc; cases hc
      unfold parseDecimal
      cases ht : i.tail <;> simp only [he, Bool.false_eq_true, if_false]
      case ended => exact absurd (unread_ended ht le_rfl) (hsome _)
      case blanks next =>
        rw [before_unfinished, parseText_onlyBlanks]
        rcases h with h | ⟨k, h1, h2⟩
        · intro c hc
          obtain ⟨m, hm, rfl⟩ := List.mem_iff_getElem.1 hc
          obtain ⟨c', hc', h'⟩ := blankAt_iff.1 (h m)
          rw [unread_text hm, List.getElem?_eq_getElem hm] at hc'; cases hc'; exact h'
        · exfalso
          obtain ⟨c, hc, hdg⟩ := digitAt_iff.1 (h2 (k + i.text.length) (by omega))
          rw [hbeyond _ (by omega), ht] at hc
          cases hc
          rw [isDigit_of_blank (isBlank_blankByte _)] at hdg; cases hdg
      case pieces next =>
        exfalso
        have hp := endsInside_of_textNeverEnds h (text := i.text ++ pieceText (Config.inputPiece next))
          (tail := .pieces (next + 1)) (fun n => by have := unread_refill i n; rwa [ht] at this)
        rw [endsInside_piece] at hp; cases hp

/-! What `ParseU16` leaves unread. -/

theorem parseText_rest {text rest : List Byte}
    (h : (∃ n, parseText text = .number n rest) ∨ parseText text = .bad rest) : ∃ k, k ≤ text.length ∧ rest = text.drop k := by
  obtain ⟨lead, r, digits, htext, hl, hd, hr, hb⟩ := text_split text
  have hp := (parseText_eq hl hd hr hb).1
  rw [← htext] at hp
  rw [hp] at h
  have hrest : rest = r := by
    split at h
    · simp at h
    · split at h <;> simp_all
  refine ⟨(lead ++ digits.map digitChar).length, by rw [htext]; simp, ?_⟩
  rw [hrest, htext, List.drop_left]

/-- A text that was read, or was bad, is a part from the front of the unread input. -/
theorem parseU16_leaves {g : ParseGrammar} {i j : ConsoleInput}
    (h : (∃ n, parseU16 g i = .number n j) ∨ parseU16 g i = .bad j) : ∃ k, Leaves i k j := by
  have key : ∀ (text : List Byte) (tail : InputTail), (∀ n, unread ⟨text, tail⟩ n = unread i n) →
      ((∃ n, (parseText text).before tail = .number n j) ∨ (parseText text).before tail = .bad j) → ∃ k, Leaves i k j := by
    intro text tail ht h
    cases hp : parseText text with
    | onlyBlanks => simp [hp, ParsedText.before] at h
    | number n rest =>
      obtain ⟨k, hk, rfl⟩ := parseText_rest (.inl ⟨n, hp⟩)
      simp [hp, ParsedText.before] at h
      exact ⟨k, fun m => by rw [← h, unread_drop hk m, ht]⟩
    | bad rest =>
      obtain ⟨k, hk, rfl⟩ := parseText_rest (.inr hp)
      simp [hp, ParsedText.before] at h
      exact ⟨k, fun m => by rw [← h, unread_drop hk m, ht]⟩
  have hself := key i.text i.tail (fun _ => rfl)
  cases g with
  | decimal =>
    simp only [parseU16, parseDecimal] at h
    cases ht : i.tail with
    | ended => simp only [ht] at h hself; exact hself h
    | blanks next => simp only [ht] at h hself; exact hself h
    | digits next =>
      simp only [ht] at h hself
      split at h
      · exact hself h
      · simp at h
    | pieces next =>
      simp only [ht] at h hself
      split at h
      · exact hself h
      · exact key _ _ (fun n => by have := unread_refill i n; rwa [ht] at this) h
  | other =>
    simp only [parseU16, parseOther] at h
    split at h
    · simp at h
    · split at h <;> simp at h
      all_goals exact ⟨_, h ▸ dropChars_leaves _ _⟩

end Sys2Proof.Machine
end

