-- ==== Sys2Proof/Laws/PerInstr.lean ====
section
/-! SUPPORT. Statements made of every instruction, one lemma for each constructor. -/

namespace Sys2Proof.Laws.EncodingRow

/-- R55, R58: the word of a well-formed instruction has the bits of the instruction's row of the opcode table. -/
def Statement (i : Instr) : Prop := i.wellFormed = true → encode i &&& i.row.mask = i.row.pattern

theorem addReg (dr sr1 sr2 : RegIdx) : Statement (.addReg dr sr1 sr2) := encode_masked _
theorem addImm (dr sr1 : RegIdx) (imm5 : BitVec 5) : Statement (.addImm dr sr1 imm5) := encode_masked _
theorem andReg (dr sr1 sr2 : RegIdx) : Statement (.andReg dr sr1 sr2) := encode_masked _
theorem andImm (dr sr1 : RegIdx) (imm5 : BitVec 5) : Statement (.andImm dr sr1 imm5) := encode_masked _
theorem notReg (dr sr1 : RegIdx) : Statement (.notReg dr sr1) := encode_masked _
theorem br (nzp : BitVec 3) (offset9 : BitVec 9) : Statement (.br nzp offset9) := encode_masked _
theorem jmp (baseR : RegIdx) : Statement (.jmp baseR) := encode_masked _
theorem jsr (offset11 : BitVec 11) : Statement (.jsr offset11) := encode_masked _
theorem jsrr (baseR : RegIdx) : Statement (.jsrr baseR) := encode_masked _
theorem ld (dr : RegIdx) (offset9 : BitVec 9) : Statement (.ld dr offset9) := encode_masked _
theorem ldi (dr : RegIdx) (offset9 : BitVec 9) : Statement (.ldi dr offset9) := encode_masked _
theorem ldr (dr baseR : RegIdx) (offset6 : BitVec 6) : Statement (.ldr dr baseR offset6) := encode_masked _
theorem lea (dr : RegIdx) (offset9 : BitVec 9) : Statement (.lea dr offset9) := encode_masked _
theorem st (sr : RegIdx) (offset9 : BitVec 9) : Statement (.st sr offset9) := encode_masked _
theorem sti (sr : RegIdx) (offset9 : BitVec 9) : Statement (.sti sr offset9) := encode_masked _
theorem str (sr baseR : RegIdx) (offset6 : BitVec 6) : Statement (.str sr baseR offset6) := encode_masked _
theorem rti : Statement .rti := encode_masked _
theorem res : Statement .res := encode_masked _
theorem trapGetc : Statement .trapGetc := encode_masked _
theorem trapOut : Statement .trapOut := encode_masked _
theorem trapPuts : Statement .trapPuts := encode_masked _
theorem trapIn : Statement .trapIn := encode_masked _
theorem trapPutsp : Statement .trapPutsp := encode_masked _
theorem trapHalt : Statement .trapHalt := encode_masked _
theorem trapInu16 : Statement .trapInu16 := encode_masked _
theorem trapOutu16 : Statement .trapOutu16 := encode_masked _
theorem trap (vector8 : BitVec 8) : Statement (.trap vector8) := encode_masked _

end Sys2Proof.Laws.EncodingRow
end

