-- ==== Sys2Proof/Laws/Step.lean ====
section
/-! SUPPORT. What a step can do, said once: the fetch, the routines that the trap vectors select, the effects of a trap
routine and of every other instruction. -/

namespace Sys2Proof
open Sys2Proof.Machine Sys2Proof.Safety

/-- The state in which the fetched instruction is executed. -/
abbrev afterFetch (s : State) : State := (s.send (s.readSignals s.pc)).setPc (s.pc + 1)

theorem step_running {s : State} (h : s.run = .running) : step s = exec (decode (instrWord s)) (afterFetch s) := by
  simp only [step, h]; rfl

theorem step_not_running {s : State} (h : s.run ≠ .running) : step s = .next s := by
  unfold step; split <;> simp_all

theorem opcode_lt (ir : Word) : bits 15 12 ir < 16 := bits_lt 15 12 ir

/-! TRAP. -/

theorem decodeTrap_eq_of_vector (ir : Word) : decodeTrap (field 0 8 ir) =
    if bits 7 0 ir = 0x20 then .trapGetc else if bits 7 0 ir = 0x21 then .trapOut
    else if bits 7 0 ir = 0x22 then .trapPuts else if bits 7 0 ir = 0x23 then .trapIn
    else if bits 7 0 ir = 0x24 then .trapPutsp else if bits 7 0 ir = 0x25 then .trapHalt
    else if bits 7 0 ir = 0x26 then .trapInu16 else if bits 7 0 ir = 0x27 then .trapOutu16
    else .trap (field 0 8 ir) := by
  have e (k : Nat) (hk : k < 256) := field_eq_iff_bits ir k hk
  simp only [decodeTrap, ← e 0x20 (by decide), ← e 0x21 (by decide), ← e 0x22 (by decide), ← e 0x23 (by decide),
    ← e 0x24 (by decide), ← e 0x25 (by decide), ← e 0x26 (by decide), ← e 0x27 (by decide)]
  rfl

/-- Opcode 1111: one case for each vector with a routine, one for the others. -/
theorem decode_trap_cases {ir : Word} (h : bits 15 12 ir = 15) :
    (bits 7 0 ir = 0x20 ∧ decode ir = .trapGetc) ∨ (bits 7 0 ir = 0x21 ∧ decode ir = .trapOut) ∨
    (bits 7 0 ir = 0x22 ∧ decode ir = .trapPuts) ∨ (bits 7 0 ir = 0x23 ∧ decode ir = .trapIn) ∨
    (bits 7 0 ir = 0x24 ∧ decode ir = .trapPutsp) ∨ (bits 7 0 ir = 0x25 ∧ decode ir = .trapHalt) ∨
    (bits 7 0 ir = 0x26 ∧ decode ir = .trapInu16) ∨ (bits 7 0 ir = 0x27 ∧ decode ir = .trapOutu16) ∨
    ((bits 7 0 ir < 0x20 ∨ 0x27 < bits 7 0 ir) ∧ decode ir = .trap (field 0 8 ir)) := by
  have hd : decode ir = decodeTrap (field 0 8 ir) := by rw [decode_eq_of_opcode, h]; rfl
  rw [hd, decodeTrap_eq_of_vector]
  split_ifs <;> simp only [*, true_and, true_or, or_true]
  right; right; right; right; right; right; right; right
  exact ⟨by omega, trivial⟩

theorem execTrap_of_no_routine {v : BitVec 8} (s : State) (h : v.toNat < 0x20 ∨ 0x27 < v.toNat) :
    execTrap v s = execTrapUnknown v s := by
  have hne (k : Nat) (h1 : 0x20 ≤ k) (h2 : k ≤ 0x27) : v ≠ BitVec.ofNat 8 k := by
    rintro rfl; simp at h; omega
  simp [execTrap, hne 0x20, hne 0x21, hne 0x22, hne 0x23, hne 0x24, hne 0x25, hne 0x26, hne 0x27]

theorem execTrapUnknown_next {v : BitVec 8} {s t : State} (h : execTrapUnknown v s = .next t) : t = s := by
  unfold execTrapUnknown at h
  split at h <;> cases h
  rfl

theorem execTrapGetc_next {s t : State} (h : execTrapGetc s = .next t) :
    ∃ i v k, Leaves s.input k i ∧ t = (s.setInput i).setReg 0 v := by
  simp only [execTrapGetc, atEndOfInput] at h
  split at h
  · rename_i hi; cases h; exact ⟨_, _, 1, (conIn_some hi).2, rfl⟩
  · split at h <;> cases h; exact ⟨s.input, _, 0, leaves_zero _, rfl⟩

theorem execTrapInu16_next {s t : State} (h : execTrapInu16 s = .next t) :
    ∃ i v k, Leaves s.input k i ∧ t = (s.setInput i).setReg 0 v := by
  simp only [execTrapInu16, atEndOfInput] at h
  split at h
  · rename_i n rest hi
    cases h
    obtain ⟨k, hk⟩ := parseU16_leaves (.inl ⟨n, hi⟩)
    exact ⟨_, _, k, hk, rfl⟩
  · rename_i hi
    split at h <;> cases h
    obtain ⟨k, hk⟩ := parseU16_leaves (.inr hi)
    exact ⟨_, _, k, hk, rfl⟩
  · split at h
    · rename_i ht
      split at h <;> cases h
      exact ⟨_, _, s.input.text.length, leaves_ended ht, rfl⟩
    · cases h

theorem execTrapIn_next {s t : State} (h : execTrapIn s = .next t) :
    ∃ i m v k, Leaves s.input k i ∧ t = writeDest 0 v ((s.setInput i).send m) := by
  simp only [execTrapIn, atEndOfInput] at h
  split at h
  · rename_i hi; cases h; exact ⟨_, _, _, 1, (conIn_some hi).2, rfl⟩
  · split at h <;> cases h; exact ⟨s.input, [], _, 0, leaves_zero _, by simp; rfl⟩

/-! One summary of what any instruction can do to the parts of the state that an invariant speaks of. -/

/-- The effects of an instruction on parameters, console, run state, memory and flags. -/
structure Effects (i : Instr) (s t : State) : Prop where
  cfg : t.cfg = s.cfg
  signals : ∃ l, t.signals = s.signals ++ l
  input : ∃ k, Leaves s.input k t.input
  run : t.run = s.run ∨ (i = .trapHalt ∧ t.run = .halted) ∨
    ((i = .rti ∨ i = .res) ∧ t.run = .fatal .unimplementedOpcode)
  mem : t.mem = s.mem ∨ ∃ a v, t.mem = s.mem.set a v ∧ a < 65536
  cond : t.cond = s.cond ∨ oneFlag t.cond

theorem effects_send (i : Instr) (s : State) (l : List Signal) : Effects i s (s.send l) :=
  ⟨rfl, ⟨l, rfl⟩, ⟨0, leaves_zero _⟩, .inl rfl, .inl rfl, .inl rfl⟩

theorem effects_self (i : Instr) (s : State) : Effects i s s :=
  ⟨rfl, ⟨[], by simp⟩, ⟨0, leaves_zero _⟩, .inl rfl, .inl rfl, .inl rfl⟩

theorem effects_setPc (i : Instr) (s : State) (a : Word) : Effects i s (s.setPc a) :=
  ⟨rfl, ⟨[], by simp⟩, ⟨0, leaves_zero _⟩, .inl rfl, .inl rfl, .inl rfl⟩

theorem effects_setReg (i : Instr) (s : State) {l : ConsoleInput} (h : ∃ k, Leaves s.input k l) (d : RegIdx) (v : Word) :
    Effects i s ((s.setInput l).setReg d v) :=
  ⟨rfl, ⟨[], by simp⟩, h, .inl rfl, .inl rfl, .inl rfl⟩

theorem effects_writeDest (i : Instr) (s : State) {l : ConsoleInput} (h : ∃ k, Leaves s.input k l) (m : List Signal)
    (d : RegIdx) (v : Word) : Effects i s (writeDest d v ((s.setInput l).send m)) :=
  ⟨rfl, ⟨m, rfl⟩, h, .inl rfl, .inl rfl, .inr (condOf_oneFlag v)⟩

theorem effects_alu (i : Instr) (s : State) (d : RegIdx) (v : Word) : Effects i s (writeDest d v s) :=
  ⟨rfl, ⟨[], by simp⟩, ⟨0, leaves_zero _⟩, .inl rfl, .inl rfl, .inr (condOf_oneFlag v)⟩

theorem effects_loadFrom (i : Instr) (s : State) (l : List Signal) (d : RegIdx) (a : Word) :
    Effects i s (loadFrom d a (s.send l)) :=
  ⟨rfl, ⟨l ++ s.readSignals a, by simp [loadFrom]⟩, ⟨0, leaves_zero _⟩, .inl rfl, .inl rfl, .inr (condOf_oneFlag _)⟩

theorem effects_memWrite (i : Instr) (s : State) (l : List Signal) (a v : Word) :
    Effects i s (memWrite a v (s.send l)) :=
  ⟨rfl, ⟨l, rfl⟩, ⟨0, leaves_zero _⟩, .inl rfl, .inr ⟨_, _, rfl, a.isLt⟩, .inl rfl⟩

theorem exec_effects {i : Instr} {s t : State} (hw : i.wellFormed = true) (h : exec i s = .next t) :
    Effects i s t := by
  cases i
  case trapPuts => obtain ⟨k, l, rfl, -⟩ := putStringFrom_next h; exact effects_send _ _ _
  case trapPutsp => obtain ⟨k, l, rfl, -⟩ := putStringFrom_next h; exact effects_send _ _ _
  case trap v =>
    have hv : v.toNat < 0x20 ∨ 0x27 < v.toNat := by simp [Instr.wellFormed, isRoutineVector] at hw; omega
    rw [show exec (.trap v) s = execTrapUnknown v s from execTrap_of_no_routine s hv] at h
    rw [execTrapUnknown_next h]; exact effects_self _ _
  case trapGetc => obtain ⟨l, v, k, hl, rfl⟩ := execTrapGetc_next h; exact effects_setReg _ _ ⟨k, hl⟩ _ _
  case trapInu16 => obtain ⟨l, v, k, hl, rfl⟩ := execTrapInu16_next h; exact effects_setReg _ _ ⟨k, hl⟩ _ _
  case trapIn => obtain ⟨l, m, v, k, hl, rfl⟩ := execTrapIn_next h; exact effects_writeDest _ _ ⟨k, hl⟩ _ _ _
  case br n o => cases h; split; exacts [effects_setPc _ _ _, effects_self _ _]
  all_goals cases h
  case addReg | addImm | andReg | andImm | notReg | lea => exact effects_alu _ _ _ _
  case ld | ldr => simpa using effects_loadFrom _ s [] _ _
  case ldi => exact effects_loadFrom _ s _ _ _
  case st | str => simpa using effects_memWrite _ s [] _ _
  case sti => exact effects_memWrite _ s _ _ _
  case trapOut | trapOutu16 => exact effects_send _ _ _
  case jmp => exact effects_setPc _ _ _
  case jsr | jsrr => exact ⟨rfl, ⟨[], by simp [link]⟩, ⟨0, leaves_zero _⟩, .inl rfl, .inl rfl, .inl rfl⟩
  case trapHalt => exact ⟨rfl, ⟨[], by simp⟩, ⟨0, leaves_zero _⟩, .inr (.inl ⟨rfl, rfl⟩), .inl rfl, .inl rfl⟩
  case rti => exact ⟨rfl, ⟨[], by simp⟩, ⟨0, leaves_zero _⟩, .inr (.inr ⟨.inl rfl, rfl⟩), .inl rfl, .inl rfl⟩
  case res => exact ⟨rfl, ⟨[], by simp⟩, ⟨0, leaves_zero _⟩, .inr (.inr ⟨.inr rfl, rfl⟩), .inl rfl, .inl rfl⟩

/-! The addresses that a step computes, as the machine computes them. -/

theorem pcAddress_eq (s : State) : pcAddress s = s.pc + 1 + sext (field 0 9 (instrWord s)) := by
  rw [add_sext_eq_wrap _ (by decide), ← offset9_eq_field]
  have := bits_lt 8 0 (instrWord s)
  simp at this
  simp [pcAddress, Nat.mod_eq_of_lt this]

theorem baseAddress_eq (s : State) :
    wrap ((s.reg (regField 6 (instrWord s))).toNat + sextNat 6 (bits 5 0 (instrWord s))) =
      s.reg (field 6 3 (instrWord s)) + sext (field 0 6 (instrWord s)) := by
  rw [add_sext_eq_wrap _ (by decide), ← offset6_eq_field, regField_eq_field]
  have := bits_lt 5 0 (instrWord s)
  simp at this
  simp [Nat.mod_eq_of_lt this]

end Sys2Proof
end

