-- ==== Sys2Proof/Tests/Slice0.lean ====
section
/-! SUPPORT. Tests: the check of WellFormed, words written out bit by bit from the encodings of 30_encoding.md R51, single
steps with the expected results of 95_test_vectors.md (each named by its row), and for every obligation with hypotheses
inputs that meet them. -/

namespace Sys2Proof.Tests
open Sys2Proof.Machine Sys2Proof.Safety

/-! ## WellFormed -/

theorem test_wellFormed_refuses_routine_vectors :
    (Instr.trap 0x20).wellFormed = false ∧ (Instr.trap 0x25).wellFormed = false ∧
    (Instr.trap 0x27).wellFormed = false := by decide

theorem test_wellFormed_accepts_other_vectors :
    (Instr.trap 0x00).wellFormed = true ∧ (Instr.trap 0x1F).wellFormed = true ∧
    (Instr.trap 0x28).wellFormed = true ∧ (Instr.trap 0xFF).wellFormed = true := by decide

/-! ## Decoding: opcode, then the fields from the left as R51 lays them out -/

theorem test_decode_alu :
    decode 0b0001010000000001 = .addReg 2 0 1 ∧ decode 0b0001001001111111 = .addImm 1 1 0b11111 ∧
    decode 0b0101010000000001 = .andReg 2 0 1 ∧ decode 0b0101000000101111 = .andImm 0 0 0b01111 ∧
    decode 0b1001100011111111 = .notReg 4 3 := by decide

theorem test_decode_control :
    decode 0b0000111000000010 = .br 0b111 2 ∧ decode 0b0000010000000001 = .br 0b010 1 ∧
    decode 0b1100000111000000 = .jmp 7 ∧ decode 0b0100100000000010 = .jsr 2 ∧
    decode 0b0100110000000000 = .jsr 0b10000000000 ∧ decode 0b0100000010000000 = .jsrr 2 := by decide

theorem test_decode_load_store :
    decode 0b0010001000000101 = .ld 1 5 ∧ decode 0b1010011000000011 = .ldi 3 3 ∧
    decode 0b0110010001111111 = .ldr 2 1 0b111111 ∧ decode 0b1110000000000111 = .lea 0 7 ∧
    decode 0b0011000000000010 = .st 0 2 ∧ decode 0b1011100000000001 = .sti 4 1 ∧
    decode 0b0111010000100000 = .str 2 0 0b100000 := by decide

theorem test_decode_reserved_and_traps :
    decode 0b1000101010111100 = .rti ∧ decode 0b1101111111111111 = .res ∧
    decode 0b1111000000100000 = .trapGetc ∧ decode 0b1111000000100001 = .trapOut ∧
    decode 0b1111000000100010 = .trapPuts ∧ decode 0b1111000000100011 = .trapIn ∧
    decode 0b1111000000100100 = .trapPutsp ∧ decode 0b1111001100100101 = .trapHalt ∧
    decode 0b1111000000100110 = .trapInu16 ∧ decode 0b1111000000100111 = .trapOutu16 ∧
    decode 0b1111000000011111 = .trap 0x1F ∧ decode 0b1111000000101000 = .trap 0x28 ∧
    decode 0b1111000011111111 = .trap 0xFF := by decide

theorem test_decodeTableWord : decodeTableWord 16 0x1401 = some (.addReg 2 0 1) := by decide

/-! ## Single steps -/

/-- The "before" of a vector: the word `ir` at `pc`, the registers, the flags, the memory words listed. -/
def before (pc ir : Word) (regs : Vector Word 8) (cond : BitVec 3) (cells : List (Word × Word)) : State :=
  ((pc, ir) :: cells).foldl (fun s c => memWrite c.1 c.2 s)
    { State.reset with run := .running, pc := pc, regs := regs, cond := cond }

/-- The "before" of a trap vector, with its console input. -/
def trapping (ir r0 : Word) (cond : BitVec 3) (input : List Byte) (cells : List (Word × Word)) : State :=
  (before 0x3000 ir #v[r0, 0, 0, 0, 0, 0, 0, 0] cond cells).setInput ⟨input, .ended⟩

/-- The state with other parameters. -/
def withCfg (s : State) (f : Params → Params) : State := { s with cfg := f s.cfg }

/-- One step answers a next state that the check accepts. -/
def stepGives (s : State) (check : State → Bool) : Bool :=
  match step s with
  | .next t => check t
  | .fault _ => false
  | .refused _ => false

/-- One step stops with the fault. -/
def stepFaults (s : State) (f : Fault) : Bool :=
  match step s with
  | .next _ => false
  | .fault g => g == f
  | .refused _ => false

/-- One step is refused. -/
def stepRefuses (s : State) (r : Refusal) : Bool :=
  match step s with
  | .next _ => false
  | .fault _ => false
  | .refused q => q == r

theorem test_A1_add : stepGives (before 0x3000 0x1401 #v[0xFFFE, 3, 0, 0, 0, 0, 0, 0] 0 [])
    (fun t => t.reg 2 == 1 && t.cond == 0b001 && t.pc == 0x3001) = true := by decide

theorem test_A2_add_overflow : stepGives (before 0x3000 0x1401 #v[0x7FFF, 1, 0, 0, 0, 0, 0, 0] 0 [])
    (fun t => t.reg 2 == 0x8000 && t.cond == 0b100) = true := by decide

theorem test_A4_add_minus_one : stepGives (before 0x3000 0x127F #v[0, 0, 0, 0, 0, 0, 0, 0] 0 [])
    (fun t => t.reg 1 == 0xFFFF && t.cond == 0b100) = true := by decide

theorem test_A6_add_minus_sixteen : stepGives (before 0x3000 0x1030 #v[0x10, 0, 0, 0, 0, 0, 0, 0] 0 [])
    (fun t => t.reg 0 == 0 && t.cond == 0b010) = true := by decide

theorem test_A10_and : stepGives (before 0x3000 0x5401 #v[0xFF0F, 0x0FF0, 0, 0, 0, 0, 0, 0] 0 [])
    (fun t => t.reg 2 == 0x0F00 && t.cond == 0b001) = true := by decide

theorem test_A12_and_minus_one : stepGives (before 0x3000 0x503F #v[0x8000, 0, 0, 0, 0, 0, 0, 0] 0 [])
    (fun t => t.reg 0 == 0x8000 && t.cond == 0b100) = true := by decide

theorem test_A13_and_fifteen : stepGives (before 0x3000 0x502F #v[0xFFFF, 0, 0, 0, 0, 0, 0, 0] 0 [])
    (fun t => t.reg 0 == 0x000F && t.cond == 0b001) = true := by decide

theorem test_A14_not : stepGives (before 0x3000 0x98FF #v[0, 0, 0, 0x8001, 0, 0, 0, 0] 0 [])
    (fun t => t.reg 4 == 0x7FFE && t.cond == 0b001) = true := by decide

theorem test_A16_not_ignored_bits : stepGives (before 0x3000 0x9000 #v[0, 0, 0, 0, 0, 0, 0, 0] 0 [])
    (fun t => t.reg 0 == 0xFFFF && t.cond == 0b100) = true := by decide

theorem test_B1_br_no_flag : stepGives (before 0x3000 0x0E02 #v[0, 0, 0, 0, 0, 0, 0, 0] 0 [])
    (fun t => t.pc == 0x3001 && t.cond == 0) = true := by decide

theorem test_B7_br_wraps : stepGives (before 0x0001 0x0FFD #v[0, 0, 0, 0, 0, 0, 0, 0] 0b001 [])
    (fun t => t.pc == 0xFFFF && t.cond == 0b001) = true := by decide

theorem test_J1_jmp : stepGives (before 0x3000 0xC1C0 #v[0, 0, 0, 0, 0, 0, 0, 0x3002] 0 [])
    (fun t => t.pc == 0x3002) = true := by decide

theorem test_J3_jmp_ignored_bits : stepGives (before 0x3000 0xCFFF #v[0, 0, 0, 0, 0, 0, 0, 0x1234] 0 [])
    (fun t => t.pc == 0x1234) = true := by decide

theorem test_J5_jsr : stepGives (before 0x3000 0x4C00 #v[0, 0, 0, 0, 0, 0, 0, 0] 0b010 [])
    (fun t => t.reg 7 == 0x3001 && t.pc == 0x2C01 && t.cond == 0b010) = true := by decide

theorem test_J7_jsr_wraps : stepGives (before 0xFFFF 0x4BFF #v[0, 0, 0, 0, 0, 0, 0, 0x1111] 0 [])
    (fun t => t.reg 7 == 0 && t.pc == 0x03FF) = true := by decide

theorem test_J9_jsrr_r7 : stepGives (before 0x3000 0x41C0 #v[0, 0, 0, 0, 0, 0, 0, 0x5000] 0 [])
    (fun t => t.reg 7 == 0x3001 && t.pc == 0x3001) = true := by decide

theorem test_J8_jsrr_other_modes :
    stepGives (withCfg (before 0x3010 0x4080 #v[0, 0, 0x4000, 0, 0, 0, 0, 0] 0 [])
      (fun p => { p with jsrrMode := .addContents })) (fun t => t.reg 7 == 0x3011 && t.pc == 0x7011) = true ∧
    stepGives (withCfg (before 0x3010 0x4080 #v[0, 0, 0x4000, 0, 0, 0, 0, 0] 0 [])
      (fun p => { p with jsrrMode := .addIndex })) (fun t => t.reg 7 == 0x3011 && t.pc == 0x3013) = true := by
  decide

theorem test_L1_ld : stepGives (before 0x3001 0x2205 #v[0, 0, 0, 0, 0, 0, 0, 0] 0 [(0x3007, 5)])
    (fun t => t.reg 1 == 5 && t.cond == 0b001 && t.pc == 0x3002) = true := by decide

theorem test_L3_ld_wraps : stepGives (before 0xFFFF 0x2000 #v[0, 0, 0, 0, 0, 0, 0, 0] 0 [(0, 0x8000)])
    (fun t => t.reg 0 == 0x8000 && t.cond == 0b100 && t.pc == 0) = true := by decide

theorem test_L4_ldi : stepGives
    (before 0x3000 0xA603 #v[0, 0, 0, 0, 0, 0, 0, 0] 0 [(0x3004, 0x4000), (0x4000, 0x8001)])
    (fun t => t.reg 3 == 0x8001 && t.cond == 0b100) = true := by decide

theorem test_L5_ldi_keyboard_status :
    stepGives (before 0x3000 0xA200 #v[0, 0, 0, 0, 0, 0, 0, 0] 0 [(0x3001, 0xFE00), (0xFE00, 0x8000)])
      (fun t => t.reg 1 == 0x8000 && t.cond == 0b100 && t.polls == 1) = true ∧
    stepGives (withCfg (before 0x3000 0xA200 #v[0, 0, 0, 0, 0, 0, 0, 0] 0 [(0x3001, 0xFE00), (0xFE00, 0x8000)])
      (fun p => { p with kbsrReadPolicy := .sentinel })) (fun t => t.reg 1 == 0 && t.cond == 0b010) = true := by
  decide

theorem test_L7_ldr_minus_one : stepGives (before 0x3000 0x647F #v[0, 0, 0x1234, 0, 0, 0, 0, 0] 0 [])
    (fun t => t.reg 2 == 0 && t.cond == 0b010) = true := by decide

theorem test_L8_ldr_wraps : stepGives (before 0x3000 0x645F #v[0, 0xFFF0, 0, 0, 0, 0, 0, 0] 0 [(0x000F, 0xBEEF)])
    (fun t => t.reg 2 == 0xBEEF && t.cond == 0b100) = true := by decide

theorem test_L9_lea : stepGives (before 0x3000 0xE007 #v[0, 0, 0, 0, 0, 0, 0, 0] 0 [])
    (fun t => t.reg 0 == 0x3008 && t.cond == 0b001) = true := by decide

theorem test_L12_lea_zero : stepGives (before 0xFFFF 0xE000 #v[5, 0, 0, 0, 0, 0, 0, 0] 0 [])
    (fun t => t.reg 0 == 0 && t.cond == 0b010 && t.pc == 0) = true := by decide

theorem test_S1_st : stepGives (before 0x3005 0x3002 #v[0xF, 0, 0, 0, 0, 0, 0, 0] 0 [])
    (fun t => t.word 0x3008 == 0xF && t.pc == 0x3006) = true := by decide

theorem test_S3_st_itself : stepGives (before 0x3000 0x31FF #v[0xABCD, 0, 0, 0, 0, 0, 0, 0] 0 [])
    (fun t => t.word 0x3000 == 0xABCD && t.pc == 0x3001) = true := by decide

theorem test_S4_sti : stepGives
    (before 0x3002 0xB801 #v[0, 0, 0, 0, 0x7FFE, 0, 0, 0] 0b100 [(0x3004, 0x4000), (0x4000, 0x8001)])
    (fun t => t.word 0x4000 == 0x7FFE && t.word 0x3004 == 0x4000 && t.cond == 0b100) = true := by decide

theorem test_S6_str_wraps : stepGives (before 0x3000 0x7420 #v[0x10, 0, 0x1234, 0, 0, 0, 0, 0] 0 [])
    (fun t => t.word 0xFFF0 == 0x1234) = true := by decide

theorem test_S7_str_base_is_source : stepGives (before 0x3000 0x7000 #v[0x3000, 0, 0, 0, 0, 0, 0, 0] 0 [])
    (fun t => t.word 0x3000 == 0x3000) = true := by decide

theorem test_X2_rti : stepGives (before 0x3003 0x8ABC #v[5, 0, 0, 0, 0, 0, 0, 0] 0b010 [])
    (fun t => t.run == .fatal .unimplementedOpcode && t.pc == 0x3004 && t.reg 0 == 5 && t.cond == 0b010) = true := by
  decide

theorem test_X4_res_wraps : stepGives (before 0xFFFF 0xDFFF #v[0, 0, 0, 0, 0, 0, 0, 0] 0 [])
    (fun t => t.run == .fatal .unimplementedOpcode && t.pc == 0) = true := by decide

theorem test_T1_getc : stepGives (trapping 0xF020 0xFFFF 0b100 [0x41, 0x42] [])
    (fun t => t.reg 0 == 0x41 && t.input.text == [0x42] && t.output == [] && t.cond == 0b100) = true := by decide

theorem test_T10_getc_waits : stepFaults (trapping 0xF020 0 0 [] []) (.inputExhausted []) = true := by decide

/-- R33, R135: the fetch of the word at `KBSR_ADDR` has signalled before GETC waits. -/
theorem test_getc_waits_after_poll :
    stepFaults (before 0xFE00 0xF020 #v[0, 0, 0, 0, 0, 0, 0, 0] 0 []) (.inputExhausted [.poll]) = true := by decide

theorem test_T2_out : stepGives (trapping 0xF021 0x1248 0 [] [])
    (fun t => t.output == [0x48] && t.pc == 0x3001) = true := by decide

theorem test_T3_puts : stepGives (trapping 0xF022 0x4000 0 [] [(0x4000, 0x48), (0x4001, 0x69)])
    (fun t => t.output == [0x48, 0x69] && t.reg 0 == 0x4000) = true := by decide

theorem test_T3b_puts_wraps : stepGives
    (trapping 0xF022 0xFFFF 0 [] [(0xFFFF, 0x0141), (0x0000, 0x0100), (0x0001, 0x0042)])
    (fun t => t.output == [0x41, 0x00, 0x42]) = true := by decide

/-- R98, U9: a part of a walk that meets no zero word keeps what it has written. -/
theorem test_walk_without_zero_word_writes :
    let r := putString putsChars 2 0xFFFF (trapping 0xF022 0 0 [] [(0xFFFF, 0x0141), (0x0000, 0x0042)])
    (r.1 = false ∧ r.2.output = [0x41, 0x42]) := by decide

theorem test_T4_in : stepGives (trapping 0xF023 0 0b100 [0x37] [])
    (fun t => t.output == [0x37] && t.reg 0 == 0x37 && t.cond == 0b001 && t.input.text == []) = true := by decide

theorem test_T4b_in_nul : stepGives (trapping 0xF023 0 0b100 [0x00, 0x78] [])
    (fun t => t.output == [0x00] && t.cond == 0b010 && t.input.text == [0x78]) = true := by decide

theorem test_T5_putsp : stepGives
    (trapping 0xF024 0x4000 0 [] [(0x4000, 0x6548), (0x4001, 0x6C6C), (0x4002, 0x006F)])
    (fun t => t.output == [0x48, 0x65, 0x6C, 0x6C, 0x6F]) = true := by decide

theorem test_T5b_putsp_zero_bytes : stepGives
    (trapping 0xF024 0x4000 0 [] [(0x4000, 0x4100), (0x4001, 0x0042), (0x4002, 0x0043)])
    (fun t => t.output == [0x00, 0x41, 0x42, 0x43]) = true := by decide

theorem test_T6b_halt : stepGives (trapping 0xF325 0 0 [] [])
    (fun t => t.run == .halted && t.pc == 0x3001 && t.output == []) = true := by decide

theorem test_T7_inu16 : stepGives (trapping 0xF026 0 0b100 [0x20, 0x20, 0x30, 0x30, 0x37, 0x78] [])
    (fun t => t.reg 0 == 7 && t.input.text == [0x78] && t.cond == 0b100 && t.output == []) = true := by decide

theorem test_T7b_inu16_largest : stepGives (trapping 0xF026 0 0 [0x36, 0x35, 0x35, 0x33, 0x35, 0x0A] [])
    (fun t => t.reg 0 == 0xFFFF && t.input.text == [0x0A]) = true := by decide

theorem test_T7c_inu16_bad : 
    stepRefuses (trapping 0xF026 0 0 [0x36, 0x35, 0x35, 0x33, 0x36] []) .inu16BadInput = true := by decide

theorem test_T8_outu16 : stepGives (trapping 0xF027 0x8000 0 [] [])
    (fun t => t.output == [0x33, 0x32, 0x37, 0x36, 0x38]) = true := by decide

theorem test_T8_outu16_zero : stepGives (trapping 0xF027 0 0 [] []) (fun t => t.output == [0x30]) = true := by decide

theorem test_T9_unknown_vector : stepGives (before 0x3000 0xF000 #v[1, 0, 0, 0, 0, 0, 0, 2] 0b001 [])
    (fun t => t.reg 0 == 1 && t.reg 7 == 2 && t.cond == 0b001 && t.pc == 0x3001) = true := by decide

theorem test_Z2_empty_memory : stepGives (State.reset.setRun .running)
    (fun t => t.pc == 0x3001 && t.cond == 0 && t.mem == []) = true := by decide

/-! ## Inputs that meet the hypotheses of the obligations -/

/-- EncodeOfDecode: one word for each clause, every hypothesis met by each. -/
theorem witness_EncodeOfDecode : ∀ ir ∈ [(0x1401 : Word), 0x1020, 0x5401, 0x98FF, 0xC1C0, 0x4080, 0x4FFF, 0x8000, 0xD000, 0xF0FF],
    (bits 15 12 ir = 0b0001 ∨ bits 15 12 ir = 0b0101 → bits 5 5 ir = 0 → bits 4 3 ir = 0) ∧
    (bits 15 12 ir = 0b1001 → bits 5 0 ir = 0b111111) ∧
    (bits 15 12 ir = 0b1100 → bits 11 9 ir = 0 ∧ bits 5 0 ir = 0) ∧
    (bits 15 12 ir = 0b0100 → bits 11 11 ir = 0 → bits 10 9 ir = 0 ∧ bits 5 0 ir = 0) ∧
    (bits 15 12 ir = 0b1000 ∨ bits 15 12 ir = 0b1101 → bits 11 0 ir = 0) ∧
    (bits 15 12 ir = 0b1111 → bits 11 8 ir = 0) := by
  intro ir h
  fin_cases h <;> decide

theorem witness_TrapVectorSelectsRoutine :
    (∀ v ∈ [0x00, 0x1F, 0x20, 0x21, 0x22, 0x23, 0x24, 0x25, 0x26, 0x27, 0x28, 0xFF],
      bits 15 12 (BitVec.ofNat 16 (0xF000 + v)) = 0b1111 ∧ bits 7 0 (BitVec.ofNat 16 (0xF000 + v)) = v) ∧
    0x1F < 0x20 ∧ 0x27 < 0x28 := by decide

/-- SignExtensionIsTwosComplement: the ends of the widths and of the 5-bit range. -/
theorem witness_SignExtensionIsTwosComplement :
    (1 ≤ 1 ∧ 1 ≤ 15 ∧ 15 ≤ 15) ∧
    (-(2 ^ (5 - 1) : Int) ≤ (0xFFF0 : Word).toInt ∧ (0xFFF0 : Word).toInt < 2 ^ (5 - 1)) ∧
    (-(2 ^ (5 - 1) : Int) ≤ (0x000F : Word).toInt ∧ (0x000F : Word).toInt < 2 ^ (5 - 1)) := by decide

/-- MemoryReadsAndWrites, StorePcRelative, StoreIndirect, StoreBaseOffset, PlacedWordIsTheNextInstruction: a memory in
canonical form, with an address that is `KBSR_ADDR` under each policy, and the two next to it. -/
theorem witness_MemoryReadsAndWrites :
    Memory.wf (before 0x3000 0xA200 #v[0, 0, 0, 0, 0, 0, 0, 0] 0 [(0x3001, 0xFE00)]).mem ∧
    State.reset.cfg.kbsrAddr = 0xFE00 ∧ State.reset.cfg.kbsrReadPolicy = .stored ∧
    (withCfg State.reset (fun p => { p with kbsrReadPolicy := .sentinel })).cfg.kbsrReadPolicy = .sentinel ∧
    (0xFDFF : Word) ≠ State.reset.cfg.kbsrAddr ∧ (0xFE01 : Word) ≠ State.reset.cfg.kbsrAddr := by decide

/-- The decoding clauses of the statements about instructions: a word of each opcode, with its selecting bit. -/
theorem witness_opcodes :
    (bits 15 12 0x1401 = 0b0001 ∧ bits 5 5 0x1401 = 0) ∧ (bits 15 12 0x127F = 0b0001 ∧ bits 5 5 0x127F = 1) ∧
    (bits 15 12 0x5401 = 0b0101 ∧ bits 5 5 0x5401 = 0) ∧ (bits 15 12 0x503F = 0b0101 ∧ bits 5 5 0x503F = 1) ∧
    bits 15 12 0x98FF = 0b1001 ∧ bits 15 12 0x0E02 = 0b0000 ∧ bits 15 12 0xC1C0 = 0b1100 ∧
    (bits 15 12 0x4802 = 0b0100 ∧ bits 11 11 0x4802 = 1) ∧ (bits 15 12 0x4080 = 0b0100 ∧ bits 11 11 0x4080 = 0) ∧
    bits 15 12 0x2205 = 0b0010 ∧ bits 15 12 0xA603 = 0b1010 ∧ bits 15 12 0x6400 = 0b0110 ∧
    bits 15 12 0xE007 = 0b1110 ∧ bits 15 12 0x3002 = 0b0011 ∧ bits 15 12 0xB801 = 0b1011 ∧
    bits 15 12 0x7400 = 0b0111 ∧ bits 15 12 0x8000 = 0b1000 ∧ bits 15 12 0xD000 = 0b1101 := by decide

theorem witness_BranchOnCondition :
    (0b111 : BitVec 3) &&& (State.reset.setCond 0b010).cond ≠ 0 ∧ (0b000 : BitVec 3) &&& (State.reset.setCond 0b100).cond = 0 ∧
    (0b111 : BitVec 3) &&& State.reset.cond = 0 := by decide

theorem witness_JumpToSubroutineRegister : State.reset.cfg.jsrrMode = .jumpContents ∧
    (withCfg State.reset (fun p => { p with jsrrMode := .addContents })).cfg.jsrrMode = .addContents ∧
    (withCfg State.reset (fun p => { p with jsrrMode := .addIndex })).cfg.jsrrMode = .addIndex := by decide

/-- Console inputs that end, and that go on for ever in each of the three shapes, after listed characters. -/
theorem witness_GetcReadsOneCharacter_InReadsAndEchoes :
    unread ⟨[0x41, 0x42], .ended⟩ 0 = some 0x41 ∧ unread ⟨[0xFF], .pieces 0⟩ 0 = some 0xFF ∧
    unread ⟨[0x00], .blanks 0⟩ 0 = some 0x00 ∧ (∃ c, unread ⟨[], .digits 0⟩ 0 = some c) :=
  ⟨by decide, by decide, by decide, _, rfl⟩

/-- PutsWritesTheString, PutspWritesThePackedString: the empty string, and one that wraps. -/
theorem witness_PutsWritesTheString :
    State.reset.reads (wrap ((State.reset.reg 0).toNat + 0)) = 0 ∧
    ((∀ i, i < 2 → (trapping 0xF022 0xFFFF 0 [] [(0xFFFF, 0x0141), (0x0000, 0x0100)]).reads (wrap (0xFFFF + i)) ≠ 0) ∧
      (trapping 0xF022 0xFFFF 0 [] [(0xFFFF, 0x0141), (0x0000, 0x0100)]).reads (wrap (0xFFFF + 2)) = 0) := by decide

/-- A memory that holds 1 in its first `k` words and zero above. -/
def ones (k : Nat) : State := { State.reset with mem := writeWords 0 (List.replicate k 1) [] }

theorem ones_reads_below {k : Nat} (h : k ≤ 65536) (a : Word) (ha : a.toNat < k) : (ones k).reads a = 1 := by
  have hg := writeWords_get (ws := List.replicate k (1 : Word)) (base := 0) Memory.wf_nil (by simpa using h) a.toNat
    (by simpa using ha)
  simp only [Nat.zero_add, List.getElem_replicate] at hg
  unfold State.reads
  rw [if_neg (by rintro ⟨-, h⟩; cases h)]
  exact hg

theorem ones_reads_last {k : Nat} (h : k < 65536) : (ones k).reads (wrap k) = 0 := by
  unfold State.reads
  rw [if_neg (by rintro ⟨-, h⟩; cases h)]
  refine writeWords_get_above ?_
  simp only [wrap, BitVec.toNat_ofNat, List.length_replicate]
  omega

/-- PutsWritesTheString, PutspWritesThePackedString: a string of any length `k` up to the longest, 65535 words. -/
theorem witness_PutsWritesTheString_longest (k : Nat) (h : k < 65536) :
    (∀ i, i < k → (ones k).reads (wrap (((ones k).reg 0).toNat + i)) ≠ 0) ∧
    (ones k).reads (wrap (((ones k).reg 0).toNat + k)) = 0 := by
  have h0 : ((ones k).reg 0).toNat = 0 := rfl
  rw [h0, Nat.zero_add]
  refine ⟨fun i hi => ?_, ones_reads_last h⟩
  rw [Nat.zero_add, ones_reads_below (by omega) _ (by simp only [wrap, BitVec.toNat_ofNat]; omega)]
  decide

/-- EndlessStringsExactlyWithoutZeroWord, EndlessStringsWriteForEver: with `k` 65536, a memory without a zero word. -/
theorem witness_EndlessStringsExactlyWithoutZeroWord {k : Nat} (h : k = 65536) (a : Word) : (ones k).reads a ≠ 0 := by
  rw [ones_reads_below (by omega) a (by have := a.isLt; omega)]
  decide

/-- The state right after reset with a console input. -/
def typed (i : ConsoleInput) : State := State.reset.setInput i

/-- Inu16ReadsANumber: blanks, a leading zero, the largest value; the run ends at the end of the input, before a character
that follows it, and before blanks for ever. -/
theorem witness_Inu16ReadsANumber :
    State.reset.cfg.parseU16 = .decimal ∧ (∀ c ∈ ([0x20, 0x0D] : List Byte), c ∈ blanks) ∧
    (∀ digits ∈ [[6, 5, 5, 3, 5], [0, 7]], digits ≠ [] ∧ (∀ d ∈ digits, d < 10) ∧ numeralValue digits ≤ 65535) ∧
    (∀ tail ∈ [InputTail.ended, .blanks 3], Begins ⟨[0x20, 0x0D, 0x30, 0x37], tail⟩ ([0x20, 0x0D] ++ [0, 7].map digitChar)) ∧
    noDigitAt ⟨[0x20, 0x0D, 0x30, 0x37], .ended⟩ 4 ∧ noDigitAt ⟨[0x20, 0x0D, 0x30, 0x37, 0x3A], .pieces 0⟩ 4 ∧
    noDigitAt ⟨[0x20, 0x0D, 0x30, 0x37], .blanks 3⟩ 4 := by
  refine ⟨rfl, by decide, by decide, ?_, ?_, ?_, ?_⟩
  · intro tail _ n hn
    exact unread_text (i := ⟨[0x20, 0x0D, 0x30, 0x37], tail⟩) (by simpa using hn)
  · intro c hc; simp [unread, tailChar] at hc
  · intro c hc; simp [unread] at hc; subst hc; decide
  · intro c hc
    rw [← isDigit_eq_false_iff]
    simp [unread, tailChar] at hc; subst hc
    exact isDigit_of_blank (isBlank_blankByte _)

/-- Inu16BadInputFollowsThePolicy: the least value too large, and a text that begins with no digit, under each policy. -/
theorem witness_Inu16BadInputFollowsThePolicy :
    (∀ d ∈ [6, 5, 5, 3, 6], d < 10) ∧ 65535 < numeralValue [6, 5, 5, 3, 6] ∧
    Begins ⟨[0x36, 0x35, 0x35, 0x33, 0x36], .ended⟩ ([] ++ [6, 5, 5, 3, 6].map digitChar) ∧
    noDigitAt ⟨[0x36, 0x35, 0x35, 0x33, 0x36], .ended⟩ 5 ∧
    Begins ⟨[0x09, 0x2D, 0x31], .digits 0⟩ ([0x09] ++ ([] : List Nat).map digitChar) ∧
    noDigitAt ⟨[0x09, 0x2D, 0x31], .digits 0⟩ 1 ∧ (∃ c ∈ unread ⟨[0x09, 0x2D, 0x31], .digits 0⟩ 1, c ∉ blanks) ∧
    (∀ q ∈ [BadInputPolicy.refuse, .stuck, .value 5],
      (withCfg State.reset (fun p => { p with inu16BadInputPolicy := q })).cfg.inu16BadInputPolicy = q) := by
  refine ⟨by decide, by decide, ?_, ?_, ?_, ?_, ⟨0x2D, by decide, by decide⟩, by decide⟩
  · intro n hn
    exact unread_text (i := ⟨[0x36, 0x35, 0x35, 0x33, 0x36], .ended⟩) (by simpa using hn)
  · intro c hc; simp [unread, tailChar] at hc
  · intro n hn
    simp at hn; subst hn; decide
  · intro c hc; simp [unread] at hc; subst hc; decide

/-- EndOfInputFollowsThePolicy: no input under any grammar, and blanks alone, under each policy. -/
theorem witness_EndOfInputFollowsThePolicy :
    unread State.reset.input 0 = none ∧ State.reset.cfg.eofPolicy = .stuck ∧ AtEndForInu16 State.reset ∧
    AtEndForInu16 (typed ⟨[0x20, 0x0A], .ended⟩) ∧
    (withCfg State.reset (fun p => { p with eofPolicy := .value 0xFFFF })).cfg.eofPolicy = .value 0xFFFF := by
  refine ⟨by decide, by decide, .inl (by decide), .inr ⟨rfl, 2, by decide, ?_⟩, by decide⟩
  intro m hm
  interval_cases m
  · exact ⟨0x20, by decide, by decide⟩
  · exact ⟨0x0A, by decide, by decide⟩

/-- Inu16NeverCompletesOnEndlessText: blanks for ever, and a blank and digits for ever. -/
theorem witness_Inu16NeverCompletesOnEndlessText :
    TextNeverEnds (typed ⟨[], .blanks 0⟩).input ∧ TextNeverEnds (typed ⟨[0x20], .digits 0⟩).input := by
  refine ⟨.inl fun n => blankAt_iff.2 ⟨_, by rw [typed, State.setInput_input, unread_nil]; rfl, isBlank_blankByte _⟩,
    .inr ⟨1, fun n hn => ?_, fun n hn => digitAt_iff.2 ⟨digitByte (Config.inputDigit (n - 1)), ?_, isDigit_digitByte _⟩⟩⟩
  · obtain rfl : n = 0 := by omega
    exact ⟨0x20, by decide, by decide⟩
  · simp [typed, unread, tailChar, Nat.not_lt.2 hn]

/-- Inu16FollowsTheConfigurationFunction: another function than the default, and an input that is not exhausted. -/
theorem witness_Inu16FollowsTheConfigurationFunction :
    (withCfg (typed ⟨[0x41], .ended⟩) (fun p => { p with parseU16 := .other })).cfg.parseU16 = .other ∧
    unread (withCfg (typed ⟨[0x41], .ended⟩) (fun p => { p with parseU16 := .other })).input 0 ≠ none := by decide

/-- Inu16InvertsOutu16: OUTU16 of 65535, read back between a blank and a letter. -/
theorem witness_Inu16InvertsOutu16 :
    (∃ u, exec .trapOutu16 (State.reset.setReg 0 0xFFFF) = .next u ∧
      u.output = (State.reset.setReg 0 0xFFFF).output ++ [0x36, 0x35, 0x35, 0x33, 0x35]) ∧
    (∀ c ∈ ([0x20] : List Byte), c ∈ blanks) ∧
    Begins (typed ⟨[0x20, 0x36, 0x35, 0x35, 0x33, 0x35, 0x78], .ended⟩).input
      ([0x20] ++ [0x36, 0x35, 0x35, 0x33, 0x35]) ∧
    noDigitAt (typed ⟨[0x20, 0x36, 0x35, 0x35, 0x33, 0x35, 0x78], .ended⟩).input 6 := by
  refine ⟨⟨_, rfl, by decide⟩, by decide, ?_, ?_⟩
  · intro n hn
    simp at hn
    interval_cases n <;> decide
  · intro c hc; simp [typed, unread] at hc; subst hc; decide

theorem witness_UnknownTrapVectorFollowsThePolicy :
    (∀ v ∈ [(0x00 : BitVec 8), 0x1F, 0x28, 0xFF], v.toNat < 0x20 ∨ 0x27 < v.toNat) ∧
    State.reset.cfg.unknownTrapPolicy = .nop ∧
    (withCfg State.reset (fun p => { p with unknownTrapPolicy := .refuse })).cfg.unknownTrapPolicy = .refuse := by decide

/-- LaunchLoadsTheImage, InvariantAtStart: an image that ends at the top of memory, and one of one word more. -/
theorem witness_LaunchLoadsTheImage :
    (Params.default.pcStart.toNat + (List.replicate 53248 (1 : Word)).length ≤ 65536) ∧
    (65536 < Params.default.pcStart.toNat + (List.replicate 53249 (1 : Word)).length) ∧
    (∃ s, launch Params.default [0xF025] = some s) := by
  refine ⟨?_, ?_, ⟨_, rfl⟩⟩ <;> rw [List.length_replicate] <;> decide

/-- StepRunsTheDecodedInstruction, EveryStepKeepsTheInvariant: a running state that meets the invariant, and its step. -/
theorem witness_EveryStepKeepsTheInvariant :
    (trapping 0xF025 0 0 [] []).run = .running ∧ Inv (trapping 0xF025 0 0 [] []) ∧
    stepGives (trapping 0xF025 0 0 [] []) (fun _ => true) = true :=
  ⟨rfl, ⟨by decide, .inl rfl, by decide, by decide⟩, by decide⟩

theorem witness_NoStepOutsideRunning :
    State.reset.run ≠ .running ∧ (State.reset.setRun .halted).run ≠ .running ∧
    (State.reset.setRun (.fatal .unimplementedOpcode)).run ≠ .running := by decide

/-- RunStateTransitions, FatalExactlyOnReservedOpcodes: the steps that end a run. -/
theorem witness_FatalExactlyOnReservedOpcodes :
    (opcode (before 0x3000 0x8000 #v[0, 0, 0, 0, 0, 0, 0, 0] 0 []) = 0b1000 ∧
      stepGives (before 0x3000 0x8000 #v[0, 0, 0, 0, 0, 0, 0, 0] 0 []) (fun t => t.run == .fatal .unimplementedOpcode) = true) ∧
    opcode (before 0x3000 0xD000 #v[0, 0, 0, 0, 0, 0, 0, 0] 0 []) = 0b1101 ∧
    (opcode (trapping 0xF025 0 0 [] []) = 0b1111 ∧ vector (trapping 0xF025 0 0 [] []) = 0x25) := by decide

/-- WritersOfCond, WritersOfRegisters: an ADD, a JSR, an IN and an OUT that complete; the registers that they change. -/
theorem witness_WritersOfRegisters :
    (opcode (before 0x3000 0x1401 #v[1, 2, 0, 0, 0, 0, 0, 0] 0 []) ∈ destOpcodes ∧
      stepGives (before 0x3000 0x1401 #v[1, 2, 0, 0, 0, 0, 0, 0] 0 []) (fun t => t.reg 2 != 0) = true) ∧
    (opcode (before 0x3000 0x4802 #v[0, 0, 0, 0, 0, 0, 0, 0] 0 []) ∉ destOpcodes ∧
      stepGives (before 0x3000 0x4802 #v[0, 0, 0, 0, 0, 0, 0, 0] 0 []) (fun t => t.reg 7 != 0) = true) ∧
    (opcode (trapping 0xF023 0 0 [0x37] []) = 0b1111 ∧ vector (trapping 0xF023 0 0 [0x37] []) = 0x23 ∧
      stepGives (trapping 0xF023 0 0 [0x37] []) (fun t => t.reg 0 != 0) = true) ∧
    (¬(opcode (trapping 0xF021 0 0 [] []) = 0b1111 ∧ vector (trapping 0xF021 0 0 [] []) = 0x23)) := by decide

/-- WritersOfMemory, StoredWordIsFetchedNext: a canonical memory and the address of each store; vector S2 stores over the
next instruction. -/
theorem witness_StoredWordIsFetchedNext :
    Memory.wf (before 0x3000 0x3000 #v[0xF025, 0, 0, 0, 0, 0, 0, 0] 0 []).mem ∧
    storeAddress (before 0x3000 0x3000 #v[0xF025, 0, 0, 0, 0, 0, 0, 0] 0 []) = some 0x3001 ∧
    stepGives (before 0x3000 0x3000 #v[0xF025, 0, 0, 0, 0, 0, 0, 0] 0 [])
      (fun t => t.pc == 0x3001 && t.pc != t.cfg.kbsrAddr && t.word 0x3001 == 0xF025) = true ∧
    storeAddress (before 0x3000 0xB801 #v[0, 0, 0, 0, 1, 0, 0, 0] 0 [(0x3002, 0x4000)]) = some 0x4000 ∧
    storeAddress (before 0x3000 0x7420 #v[0x10, 0, 1, 0, 0, 0, 0, 0] 0 []) = some 0xFFF0 := by decide

/-- WritersOfPc: a branch taken and not taken, a JMP, a step that is none of the four. -/
theorem witness_WritersOfPc :
    (opcode (before 0x3000 0x0E02 #v[0, 0, 0, 0, 0, 0, 0, 0] 0b010 []) = 0 ∧
      regField 9 (instrWord (before 0x3000 0x0E02 #v[0, 0, 0, 0, 0, 0, 0, 0] 0b010 [])) &&& 0b010 ≠ 0) ∧
    regField 9 (instrWord (before 0x3000 0x0E02 #v[0, 0, 0, 0, 0, 0, 0, 0] 0 [])) &&& 0 = 0 ∧
    opcode (before 0x3000 0xC0C0 #v[0, 0, 0, 0, 0, 0, 0, 0] 0 []) = 0b1100 ∧
    stepGives (before 0x3000 0xC0C0 #v[0, 0, 0, 0xFFFF, 0, 0, 0, 0] 0 []) (fun t => t.pc == 0xFFFF) = true ∧
    (opcode (before 0xFFFF 0x1401 #v[0, 0, 0, 0, 0, 0, 0, 0] 0 []) ≠ 0 ∧
      stepGives (before 0xFFFF 0x1401 #v[0, 0, 0, 0, 0, 0, 0, 0] 0 []) (fun t => t.pc == 0) = true) := by decide

/-- ConsoleIsAppendedAndConsumed, StepStopsOnlyInTrap, InputIsSeenByInputTrapsOnly: steps of TRAP that write, that read, that
stop; an instruction that is no input trap. -/
theorem witness_StepStopsOnlyInTrap :
    (opcode (trapping 0xF021 0 0 [] []) = 0b1111 ∧ vector (trapping 0xF021 0 0 [] []) ∉ [0x20, 0x23, 0x26]) ∧
    (opcode (trapping 0xF020 0 0 [0x41] []) = 0b1111 ∧
      vector (trapping 0xF020 0 0 [0x41] []) ∉ [0x21, 0x22, 0x23, 0x24, 0x27]) ∧
    opcode (before 0x3000 0x1401 #v[0, 0, 0, 0, 0, 0, 0, 0] 0 []) ≠ 0b1111 ∧
    stepFaults (trapping 0xF023 0 0 [] []) (.inputExhausted []) = true ∧
    stepFaults ((trapping 0xF026 0 0 [] []).setInput ⟨[0x31], .digits 0⟩) (.numberNeverEnds []) = true ∧
    stepFaults (withCfg (trapping 0xF026 0 0 [0x78] []) (fun p => { p with inu16BadInputPolicy := .stuck }))
      (.inu16BadInput []) = true ∧
    stepRefuses (withCfg (trapping 0xF028 0 0 [] []) (fun p => { p with unknownTrapPolicy := .refuse }))
      (.unknownTrapVector 0x28) = true ∧
    ((Instr.trap 0x28).wellFormed = true ∧ Instr.trap 0x28 ≠ .trapGetc ∧ Instr.trap 0x28 ≠ .trapIn ∧
      Instr.trap 0x28 ≠ .trapInu16) := by decide

end Sys2Proof.Tests
end

section
/-! PROOFS. `setcc` (10_state.md R18, R19): which of the three values a flag stands for, and the frame. -/

namespace Sys2Proof
open Sys2Proof.Machine Sys2Proof.Safety

theorem bits_15_15_eq (v : Word) : bits 15 15 v = if v.toNat < 32768 then 0 else 1 := by
  have hlt : v.toNat < 65536 := v.isLt
  unfold bits
  split <;> omega

/-- The three cases of R19, told apart by the number of the value and its bit 15, each with its flag. -/
theorem condOf_cases (v : Word) :
    (v.toNat = 0 ∧ bits 15 15 v = 0 ∧ condOf v = 0b010) ∨
    (v.toNat ≠ 0 ∧ bits 15 15 v = 1 ∧ condOf v = 0b100) ∨
    (v.toNat ≠ 0 ∧ bits 15 15 v = 0 ∧ condOf v = 0b001) := by
  rw [condOf_eq, bits_15_15_eq]
  by_cases h0 : v.toNat = 0
  · simp [h0]
  · by_cases hpos : v.toNat < 32768 <;> simp [h0, hpos]

theorem condOf_eq_zero_iff (v : Word) : condOf v = 0b010 ↔ v.toNat = 0 := by
  obtain ⟨hv, -, hc⟩ | ⟨hv, -, hc⟩ | ⟨hv, -, hc⟩ := condOf_cases v <;> simp [hv, hc]

theorem condOf_eq_negative_iff (v : Word) : condOf v = 0b100 ↔ bits 15 15 v = 1 := by
  obtain ⟨-, hb, hc⟩ | ⟨-, hb, hc⟩ | ⟨-, hb, hc⟩ := condOf_cases v <;> simp [hb, hc]

theorem condOf_eq_positive_iff (v : Word) : condOf v = 0b001 ↔ v.toNat ≠ 0 ∧ bits 15 15 v = 0 := by
  obtain ⟨hv, hb, hc⟩ | ⟨hv, hb, hc⟩ | ⟨hv, hb, hc⟩ := condOf_cases v <;> simp [hv, hb, hc]

theorem setcc_frame (v : Word) (s : State) :
    SameRegs s (setcc v s) ∧ (setcc v s).pc = s.pc ∧ SameMemory s (setcc v s) ∧ SameControl s (setcc v s) ∧
    SameConsole s (setcc v s) :=
  ⟨setcc_reg s v, setcc_pc s v, setcc_word s v, ⟨setcc_run s v, setcc_cfg s v⟩, ⟨setcc_input s v, setcc_signals s v⟩⟩

/-- Settles O8: the flag by the three cases of R19, the rest by the frame of `setcc`. -/
theorem setccSetsTheFlagOfTheValue : Obligations.SetccSetsTheFlagOfTheValue := by
  intro v s
  rw [setcc_cond]
  exact ⟨condOf_eq_zero_iff v, condOf_eq_negative_iff v, condOf_eq_positive_iff v, setcc_frame v s⟩

end Sys2Proof
end

section
/-! PROOFS. The decoder's rules for ADD and TRAP (30_encoding.md R53), and the source's encoded words by those rules (R61). -/

namespace Sys2Proof
open Sys2Proof.Safety

theorem decode_addReg {ir : Word} (hop : bits 15 12 ir = 0b0001) (h5 : bits 5 5 ir = 0) :
    decode ir = .addReg (regField 9 ir) (regField 6 ir) (regField 0 ir) := by
  simp only [regField_eq_field]
  rw [decode_eq_of_opcode, hop, h5]
  rfl

theorem decode_addImm {ir : Word} (hop : bits 15 12 ir = 0b0001) (h5 : bits 5 5 ir = 1) :
    decode ir = .addImm (regField 9 ir) (regField 6 ir) (BitVec.ofNat 5 (bits 4 0 ir)) := by
  rw [regField_eq_field, regField_eq_field, ofNat_bits_eq_field 5 0 4 ir rfl, decode_eq_of_opcode, hop, h5]
  rfl

theorem decode_trap {ir : Word} (hop : bits 15 12 ir = 0b1111) : decode ir = decodeTrap (field 0 8 ir) := by
  rw [decode_eq_of_opcode, hop]
  rfl

/-- Settles O1: each word by the decoder's rule for its opcode, with the fields of the word computed. -/
theorem sourceWordsDecode : Obligations.SourceWordsDecode :=
  ⟨decode_addReg rfl rfl, decode_trap rfl, decode_addImm rfl rfl, decode_addReg rfl rfl, decode_addImm rfl rfl,
    decode_trap rfl, decode_trap rfl⟩

end Sys2Proof
end

section
/-! PROOFS. ADD and AND with an immediate (40_alu.md R68, R70): what the two share is the decoder's rule for bit 5, the
common end `writeDest` (R65 c) and its flag. -/

namespace Sys2Proof
open Sys2Proof.Machine Sys2Proof.Safety

theorem decode_andImm {ir : Word} (hop : bits 15 12 ir = 0b0101) (h5 : bits 5 5 ir = 1) :
    decode ir = .andImm (regField 9 ir) (regField 6 ir) (BitVec.ofNat 5 (bits 4 0 ir)) := by
  rw [regField_eq_field, regField_eq_field, imm5_eq_field, decode_eq_of_opcode, hop, h5]
  rfl

/-- The machine's flag of a word is R19's flag of its number. -/
theorem condOf_eq_flagsOf (v : Word) : condOf v = flagsOf v.toNat := condOf_eq v

theorem sext_eq_wrap_sextNat {n : Nat} (v : BitVec n) (h : n ≤ 15) : sext v = wrap (sextNat n v.toNat) := by
  rw [← sext_toNat_eq_sextNat v h, wrap, BitVec.ofNat_toNat, BitVec.setWidth_eq]

theorem add_sext_toNat {n : Nat} (v : BitVec n) (h : n ≤ 15) (w : Word) :
    (w + sext v).toNat = (w.toNat + sextNat n v.toNat) % 65536 := by
  rw [BitVec.toNat_add, sext_toNat_eq_sextNat v h]

/-- R65 c: an instruction that ends in `writeDest` completes with its result in DR, the result's flag in `cond`, and
nothing else changed. What is claimed of the result is left to `P`. -/
theorem exec_of_writeDest {i : Instr} {s : State} {d : RegIdx} {v : Word} {P : Word → Prop}
    (hexec : exec i s = .next (writeDest d v s)) (hv : P v) :
    ∃ t, exec i s = .next t ∧ P (t.reg d) ∧ t.cond = flagsOf (t.reg d).toNat ∧ OnlyDestAndFlags d s t ∧
      t.signals = s.signals := by
  refine ⟨writeDest d v s, hexec, ?_, ?_, writeDest_frame d v s, writeDest_signals s d v⟩
  · rwa [writeDest_reg_same]
  · rw [writeDest_cond, writeDest_reg_same, condOf_eq_flagsOf]

theorem exec_addImm (dr sr1 : RegIdx) (imm5 : BitVec 5) (s : State) :
    exec (.addImm dr sr1 imm5) s = .next (writeDest dr (s.reg sr1 + sext imm5) s) := rfl

theorem exec_andImm (dr sr1 : RegIdx) (imm5 : BitVec 5) (s : State) :
    exec (.andImm dr sr1 imm5) s = .next (writeDest dr (s.reg sr1 &&& sext imm5) s) := rfl

/-- Settles O11: the decoder's rule for opcode 0001 with bit 5 set, then the sum with the sign-extended immediate. -/
theorem addImmediateMode : Obligations.AddImmediateMode := by
  refine ⟨fun ir => decode_addImm, fun dr sr1 imm5 s => ?_⟩
  exact exec_of_writeDest (P := fun v => v.toNat = ((s.reg sr1).toNat + sextNat 5 imm5.toNat) % 65536)
    (exec_addImm dr sr1 imm5 s) (add_sext_toNat imm5 (by decide) (s.reg sr1))

/-- Settles O13: the decoder's rule for opcode 0101 with bit 5 set, then the AND bit by bit, the immediate sign-extended
first. -/
theorem andImmediateMode : Obligations.AndImmediateMode := by
  refine ⟨fun ir => decode_andImm, fun dr sr1 imm5 s => ?_⟩
  refine exec_of_writeDest
    (P := fun v => ∀ k, k < 16 → bits k k v = bits k k (s.reg sr1) * bits k k (wrap (sextNat 5 imm5.toNat)))
    (exec_andImm dr sr1 imm5 s) fun k _ => ?_
  rw [← sext_eq_wrap_sextNat imm5 (by decide)]
  exact bits_and k (s.reg sr1) (sext imm5)

end Sys2Proof
end

section
/-! PROOFS. BR and JSR (41_control.md R73, R74, R76): the decoder's rules, the PC-relative target as a number, the frame of
a transfer, and the link. -/

namespace Sys2Proof
open Sys2Proof.Machine Sys2Proof.Safety

theorem decode_br {ir : Word} (hop : bits 15 12 ir = 0b0000) :
    decode ir = .br (regField 9 ir) (BitVec.ofNat 9 (bits 8 0 ir)) := by
  rw [regField_eq_field, offset9_eq_field, decode_eq_of_opcode, hop]
  rfl

theorem decode_jsr {ir : Word} (hop : bits 15 12 ir = 0b0100) (h11 : bits 11 11 ir = 1) :
    decode ir = .jsr (BitVec.ofNat 11 (bits 10 0 ir)) := by
  rw [offset11_eq_field, decode_eq_of_opcode, hop, h11]
  rfl

/-- The PC-relative target of R74 and R76, as a number. -/
theorem pcRelative_toNat {n : Nat} (s : State) (offset : BitVec n) (h : n ≤ 15) :
    (pcRelative s offset).toNat = (s.pc.toNat + sextNat n offset.toNat) % 65536 := by
  rw [pcRelative_eq, add_sext_toNat offset h]

theorem keepsMemoryFlagsConsole_refl (s : State) : KeepsMemoryFlagsConsole s s :=
  ⟨fun _ => rfl, rfl, ⟨rfl, rfl⟩, ⟨rfl, rfl⟩⟩

theorem setPc_frame (s : State) (target : Word) : KeepsMemoryFlagsConsole s (s.setPc target) :=
  ⟨s.setPc_word target, s.setPc_cond target, ⟨s.setPc_run target, s.setPc_cfg target⟩,
    ⟨s.setPc_input target, s.setPc_signals target⟩⟩

theorem exec_br_taken {nzp : BitVec 3} {s : State} (offset9 : BitVec 9) (h : nzp &&& s.cond ≠ 0) :
    exec (.br nzp offset9) s = .next (s.setPc (pcRelative s offset9)) := by
  have htaken : branchTaken nzp s = true := bne_iff_ne.mpr h
  exact congrArg Host.Outcome.next (if_pos htaken)

theorem exec_br_not_taken {nzp : BitVec 3} {s : State} (offset9 : BitVec 9) (h : nzp &&& s.cond = 0) :
    exec (.br nzp offset9) s = .next s := by
  have htaken : ¬ branchTaken nzp s = true := fun ht => bne_iff_ne.mp ht h
  exact congrArg Host.Outcome.next (if_neg htaken)

/-- Settles O15: BR ends in a transfer of `pc` when the branch is taken, and in the state itself when it is not. -/
theorem branchOnCondition : Obligations.BranchOnCondition := by
  refine ⟨fun ir => decode_br, fun nzp offset9 s => ?_⟩
  by_cases h : nzp &&& s.cond = 0
  · exact ⟨s, exec_br_not_taken offset9 h, fun hne => absurd h hne, fun _ => rfl, fun _ => rfl,
      keepsMemoryFlagsConsole_refl s⟩
  · exact ⟨_, exec_br_taken offset9 h, fun _ => pcRelative_toNat s offset9 (by decide), fun h0 => absurd h0 h,
      s.setPc_reg _, setPc_frame s _⟩

theorem link_reg_seven (s : State) : (link s).reg 7 = s.pc := s.setReg_reg_same 7 s.pc

theorem link_sameRegsBut (s : State) : SameRegsBut 7 s (link s) := fun _ hr => s.setReg_reg_other s.pc hr

/-- After the link (R76, R77) a transfer still changes nothing but `pc` and R7. -/
theorem link_setPc_frame (s : State) (target : Word) : KeepsMemoryFlagsConsole s ((link s).setPc target) :=
  setPc_frame (link s) target

theorem exec_jsr (offset11 : BitVec 11) (s : State) :
    exec (.jsr offset11) s = .next ((link s).setPc (pcRelative s offset11)) := rfl

/-- Settles O17: JSR is the link followed by a transfer, both from the same incremented `pc`. -/
theorem jumpToSubroutine : Obligations.JumpToSubroutine := by
  refine ⟨fun ir => decode_jsr, fun offset11 s => ?_⟩
  exact ⟨_, exec_jsr offset11 s, link_reg_seven s, pcRelative_toNat s offset11 (by decide), link_sameRegsBut s,
    link_setPc_frame s _⟩

end Sys2Proof
end

section
/-! PROOFS. Loads, LEA and stores (42_load_store.md R81 to R89): the decoder's rules, the two effective addresses as the
numbers of R81, what a load and a store leave, and each instruction as a load or a store at its address. -/

namespace Sys2Proof
open Sys2Proof.Machine Sys2Proof.Safety

/-! The decoder's rules: five layouts with `OFFSET9`, two with a base register and `OFFSET6` (R50, R51). -/

theorem decode_ld {ir : Word} (hop : bits 15 12 ir = 0b0010) :
    decode ir = .ld (regField 9 ir) (BitVec.ofNat 9 (bits 8 0 ir)) := by
  simp only [regField_eq_field, offset9_eq_field, decode_eq_of_opcode, hop]

theorem decode_ldi {ir : Word} (hop : bits 15 12 ir = 0b1010) :
    decode ir = .ldi (regField 9 ir) (BitVec.ofNat 9 (bits 8 0 ir)) := by
  simp only [regField_eq_field, offset9_eq_field, decode_eq_of_opcode, hop]

theorem decode_lea {ir : Word} (hop : bits 15 12 ir = 0b1110) :
    decode ir = .lea (regField 9 ir) (BitVec.ofNat 9 (bits 8 0 ir)) := by
  simp only [regField_eq_field, offset9_eq_field, decode_eq_of_opcode, hop]

theorem decode_st {ir : Word} (hop : bits 15 12 ir = 0b0011) :
    decode ir = .st (regField 9 ir) (BitVec.ofNat 9 (bits 8 0 ir)) := by
  simp only [regField_eq_field, offset9_eq_field, decode_eq_of_opcode, hop]

theorem decode_sti {ir : Word} (hop : bits 15 12 ir = 0b1011) :
    decode ir = .sti (regField 9 ir) (BitVec.ofNat 9 (bits 8 0 ir)) := by
  simp only [regField_eq_field, offset9_eq_field, decode_eq_of_opcode, hop]

theorem decode_ldr {ir : Word} (hop : bits 15 12 ir = 0b0110) :
    decode ir = .ldr (regField 9 ir) (regField 6 ir) (BitVec.ofNat 6 (bits 5 0 ir)) := by
  simp only [regField_eq_field, offset6_eq_field, decode_eq_of_opcode, hop]

theorem decode_str {ir : Word} (hop : bits 15 12 ir = 0b0111) :
    decode ir = .str (regField 9 ir) (regField 6 ir) (BitVec.ofNat 6 (bits 5 0 ir)) := by
  simp only [regField_eq_field, offset6_eq_field, decode_eq_of_opcode, hop]

/-! The effective addresses (R81). -/

theorem pcRelative_eq_wrap (s : State) (offset9 : BitVec 9) :
    pcRelative s offset9 = wrap (s.pc.toNat + sextNat 9 offset9.toNat) :=
  add_sext_eq_wrap offset9 (by decide) s.pc

theorem baseOffset_eq_wrap (s : State) (baseR : RegIdx) (offset6 : BitVec 6) :
    baseOffset s baseR offset6 = wrap ((s.reg baseR).toNat + sextNat 6 offset6.toNat) :=
  add_sext_eq_wrap offset6 (by decide) (s.reg baseR)

/-! What the shared load and the shared store leave (R82). -/

/-- R82 b: DR holds the word that `MemRead` returns, `cond` is its flag, the read's signal is sent, all else is kept. -/
theorem loadFrom_result (dr : RegIdx) (ea : Word) (s : State) :
    (loadFrom dr ea s).reg dr = s.reads ea ∧ (loadFrom dr ea s).cond = flagsOf (s.reads ea).toNat ∧
    OnlyDestAndFlags dr s (loadFrom dr ea s) ∧ (loadFrom dr ea s).signals = s.signals ++ s.readSignals ea :=
  ⟨writeDest_reg_same _ dr (s.reads ea), condOf_eq_flagsOf (s.reads ea), loadFrom_frame dr ea s, rfl⟩

/-- R34: the word at the address is the one stored, nothing is signalled, all else is kept. -/
theorem memWrite_result {s : State} (hwf : Memory.wf s.mem) (ea v : Word) :
    (memWrite ea v s).word ea = v ∧ OnlyWordAt ea s (memWrite ea v s) ∧ (memWrite ea v s).signals = s.signals :=
  ⟨memWrite_word_same hwf ea v, memWrite_frame ea v s, rfl⟩

/-! The frames do not look at the signals, so the pointer's read of LDI and STI does not count in them. -/

theorem onlyDestAndFlags_of_send {s t : State} {l : List Signal} {d : RegIdx} (h : OnlyDestAndFlags d (s.send l) t) :
    OnlyDestAndFlags d s t := h

theorem onlyWordAt_of_send {s t : State} {l : List Signal} {ea : Word} (h : OnlyWordAt ea (s.send l) t) :
    OnlyWordAt ea s t := h

/-! Each instruction as one of the shared operations, at the address of R81. -/

theorem exec_ld (dr : RegIdx) (offset9 : BitVec 9) (s : State) :
    exec (.ld dr offset9) s = .next (loadFrom dr (wrap (s.pc.toNat + sextNat 9 offset9.toNat)) s) := by
  rw [← pcRelative_eq_wrap]; rfl

theorem exec_ldi (dr : RegIdx) (offset9 : BitVec 9) (s : State) :
    let ea := wrap (s.pc.toNat + sextNat 9 offset9.toNat)
    exec (.ldi dr offset9) s = .next (loadFrom dr (s.reads ea) (s.send (s.readSignals ea))) := by
  rw [← pcRelative_eq_wrap]; rfl

theorem exec_ldr (dr baseR : RegIdx) (offset6 : BitVec 6) (s : State) :
    exec (.ldr dr baseR offset6) s =
      .next (loadFrom dr (wrap ((s.reg baseR).toNat + sextNat 6 offset6.toNat)) s) := by
  rw [← baseOffset_eq_wrap]; rfl

theorem exec_lea (dr : RegIdx) (offset9 : BitVec 9) (s : State) :
    exec (.lea dr offset9) s = .next (writeDest dr (pcRelative s offset9) s) := rfl

theorem exec_st (sr : RegIdx) (offset9 : BitVec 9) (s : State) :
    exec (.st sr offset9) s = .next (memWrite (wrap (s.pc.toNat + sextNat 9 offset9.toNat)) (s.reg sr) s) := by
  rw [← pcRelative_eq_wrap]; rfl

theorem exec_sti (sr : RegIdx) (offset9 : BitVec 9) (s : State) :
    let ea := wrap (s.pc.toNat + sextNat 9 offset9.toNat)
    exec (.sti sr offset9) s = .next (memWrite (s.reads ea) (s.reg sr) (s.send (s.readSignals ea))) := by
  rw [← pcRelative_eq_wrap]; rfl

theorem exec_str (sr baseR : RegIdx) (offset6 : BitVec 6) (s : State) :
    exec (.str sr baseR offset6) s =
      .next (memWrite (wrap ((s.reg baseR).toNat + sextNat 6 offset6.toNat)) (s.reg sr) s) := by
  rw [← baseOffset_eq_wrap]; rfl

/-- Settles O19: LD is the shared load at the PC-relative address. -/
theorem loadPcRelative : Obligations.LoadPcRelative :=
  ⟨fun _ => decode_ld, fun dr offset9 s => ⟨_, exec_ld dr offset9 s, loadFrom_result dr _ s⟩⟩

/-- Settles O20: LDI is the shared load at the pointer, from the state in which the pointer's read has been signalled. -/
theorem loadIndirect : Obligations.LoadIndirect := by
  refine ⟨fun _ => decode_ldi, fun dr offset9 s => ?_⟩
  intro ea p
  obtain ⟨hreg, hcond, hframe, hsignals⟩ := loadFrom_result dr p (s.send (s.readSignals ea))
  exact ⟨_, exec_ldi dr offset9 s, hreg, hcond, onlyDestAndFlags_of_send hframe, hsignals⟩

/-- Settles O21: LDR is the shared load at an address computed in the state before DR is written. -/
theorem loadBaseOffset : Obligations.LoadBaseOffset :=
  ⟨fun _ => decode_ldr, fun dr baseR offset6 s => ⟨_, exec_ldr dr baseR offset6 s, loadFrom_result dr _ s⟩⟩

/-- Settles O22: LEA writes the PC-relative address itself, by the common end `writeDest`, which signals nothing. -/
theorem loadEffectiveAddress : Obligations.LoadEffectiveAddress := by
  refine ⟨fun _ => decode_lea, fun dr offset9 s => ?_⟩
  exact exec_of_writeDest (P := fun v => v.toNat = (s.pc.toNat + sextNat 9 offset9.toNat) % 65536)
    (exec_lea dr offset9 s) (pcRelative_toNat s offset9 (by decide))

/-- Settles O23: ST is the shared store at the PC-relative address. -/
theorem storePcRelative : Obligations.StorePcRelative :=
  ⟨fun _ => decode_st, fun sr offset9 s hwf => ⟨_, exec_st sr offset9 s, memWrite_result hwf _ (s.reg sr)⟩⟩

/-- Settles O24: STI is the shared store at the pointer, from the state in which the pointer's read has been signalled. -/
theorem storeIndirect : Obligations.StoreIndirect := by
  refine ⟨fun _ => decode_sti, fun sr offset9 s hwf => ?_⟩
  intro ea p
  obtain ⟨hword, hframe, hsignals⟩ := memWrite_result (s := s.send (s.readSignals ea)) hwf p (s.reg sr)
  exact ⟨_, exec_sti sr offset9 s, hword, onlyWordAt_of_send hframe, hsignals⟩

/-- Settles O25: STR is the shared store at the base plus offset; the stored word is SR also where SR is the base. -/
theorem storeBaseOffset : Obligations.StoreBaseOffset :=
  ⟨fun _ => decode_str, fun sr baseR offset6 s hwf =>
    ⟨_, exec_str sr baseR offset6 s, memWrite_result hwf _ (s.reg sr)⟩⟩

end Sys2Proof
end

section
/-! PROOFS. OUT (43_trap.md R97): `ConOut` with the low byte of R0. -/

namespace Sys2Proof
open Sys2Proof.Machine Sys2Proof.Safety

/-- `ConOut(b)` (R95) appends one signal and its character to the console output, and all else is kept. -/
theorem conOut_result (s : State) (b : Byte) :
    (s.conOut b).signals = s.signals ++ [.conOut b] ∧ (s.conOut b).output = s.output ++ [b] ∧
    OnlySignals s (s.conOut b) :=
  ⟨s.send_signals [.conOut b], send_output s [.conOut b], send_frame s [.conOut b]⟩

theorem exec_trapOut (s : State) : exec .trapOut s = .next (s.conOut (BitVec.ofNat 8 (bits 7 0 (s.reg 0)))) := by
  rw [lowByte_eq_bits]; rfl

/-- Settles O28: the decoder's rule for TRAP, then OUT as one `ConOut` of bits 7:0 of R0. -/
theorem outWritesTheLowByte : Obligations.OutWritesTheLowByte :=
  ⟨decode_trap rfl, fun s => ⟨_, exec_trapOut s, conOut_result s _⟩⟩

end Sys2Proof
end

section
/-! PROOFS. The one fatal condition that a step raises (60_exceptions.md R116, R117, R120): the opcodes that decode to
RTI and RES, what such a step leaves, and that no other instruction raises it. -/

namespace Sys2Proof
open Sys2Proof.Machine Sys2Proof.Safety

/-! The decoder (R53, R57): its answers are well-formed, and RTI and RES are its answers to the reserved opcodes alone. -/

theorem decode_rti {ir : Word} (hop : bits 15 12 ir = 0b1000) : decode ir = .rti := by
  simp only [decode_eq_of_opcode, hop]

theorem decode_res {ir : Word} (hop : bits 15 12 ir = 0b1101) : decode ir = .res := by
  simp only [decode_eq_of_opcode, hop]

theorem decodeTrap_wellFormed (v : BitVec 8) : (decodeTrap v).wellFormed = true := by
  unfold decodeTrap
  split_ifs
  case neg =>
    have hv : v.toNat < 0x20 ∨ 0x27 < v.toNat := by bv_omega
    simpa [Instr.wellFormed, isRoutineVector] using hv
  all_goals rfl

theorem decode_wellFormed (ir : Word) : (decode ir).wellFormed = true := by
  rw [decode_eq_of_opcode]
  split
  case h_16 => exact decodeTrap_wellFormed _
  case h_2 | h_5 | h_6 => split <;> rfl
  all_goals rfl

theorem decodeTrap_not_reserved (v : BitVec 8) : decodeTrap v ≠ .rti ∧ decodeTrap v ≠ .res := by
  unfold decodeTrap
  split_ifs <;> exact ⟨nofun, nofun⟩

theorem opcode_of_decode_reserved {ir : Word} (h : decode ir = .rti ∨ decode ir = .res) :
    bits 15 12 ir = 0b1000 ∨ bits 15 12 ir = 0b1101 := by
  rw [decode_eq_of_opcode] at h
  split at h
  case h_9 hop => exact .inl hop
  case h_14 hop => exact .inr hop
  case h_16 => exact absurd h (not_or.mpr (decodeTrap_not_reserved _))
  case h_2 | h_5 | h_6 => split at h <;> simp at h
  all_goals simp at h

/-! The step. -/

/-- R117: after the fetch and the increment, the step only takes the fatal condition. -/
theorem step_of_reserved {s : State} (hrun : s.run = .running) (hop : opcode s = 0b1000 ∨ opcode s = 0b1101) :
    step s = .next ((afterFetch s).setRun (.fatal .unimplementedOpcode)) := by
  rw [step_running hrun]
  rcases hop with hrti | hres
  · rw [decode_rti hrti]; rfl
  · rw [decode_res hres]; rfl

theorem afterFetch_pc_toNat (s : State) : (afterFetch s).pc.toNat = (s.pc.toNat + 1) % 65536 :=
  BitVec.toNat_add s.pc 1

/-- The fetched word is still readable one word before the incremented `pc`, also where that wraps. -/
theorem afterFetch_reads_pred (s : State) : (afterFetch s).reads ((afterFetch s).pc - 1) = instrWord s :=
  congrArg s.reads (add_sub_cancel_right s.pc 1)

/-- R120: an instruction raises a fatal condition only when it is one of the reserved two. -/
theorem reserved_of_exec_fatal {i : Instr} {s t : State} {k : FatalKind} (hw : i.wellFormed = true)
    (hrun : s.run = .running) (h : exec i s = .next t) (hk : t.run = .fatal k) : i = .rti ∨ i = .res := by
  obtain hkeep | ⟨-, hhalt⟩ | ⟨hi, -⟩ := (exec_effects hw h).run
  · exact absurd (hk.symm.trans (hkeep.trans hrun)) nofun
  · exact absurd (hk.symm.trans hhalt) nofun
  · exact hi

/-- Settles O48: one way the reserved step is the fetch and the run state, the other way the effects of the decoded
instruction leave only RTI and RES, which the decoder answers for the two opcodes alone. -/
theorem fatalExactlyOnReservedOpcodes : Obligations.FatalExactlyOnReservedOpcodes := by
  refine fun s hrun => ⟨fun hop => ?_, fun t k hstep hk => ?_⟩
  · exact ⟨_, step_of_reserved hrun hop, rfl, afterFetch_pc_toNat s, fun _ => rfl, rfl, fun _ => rfl, rfl, rfl, rfl,
      afterFetch_reads_pred s⟩
  · rw [step_running hrun] at hstep
    exact opcode_of_decode_reserved (reserved_of_exec_fatal (s := afterFetch s) (decode_wellFormed _) hrun hstep hk)

end Sys2Proof
end

section
/-! PROOFS. Reset (70_reset_and_hazards.md R131): what each accessor reads in `State.resetTo p`, once for every value of the
parameters; `Reset` from any state and `State.reset` are two instances of it. -/

namespace Sys2Proof
open Sys2Proof.Machine

@[simp] theorem resetTo_reg (p : Params) (r : RegIdx) : (State.resetTo p).reg r = 0 :=
  Vector.getElem_replicate (regIdx_lt r)

@[simp] theorem resetTo_pc (p : Params) : (State.resetTo p).pc = p.pcStart := rfl

@[simp] theorem resetTo_cond (p : Params) : (State.resetTo p).cond = p.condReset := rfl

@[simp] theorem resetTo_run (p : Params) : (State.resetTo p).run = .beforeStart := rfl

/-- No cell is listed, and an unlisted address reads as zero. -/
@[simp] theorem resetTo_word (p : Params) (a : Word) : (State.resetTo p).word a = 0 := Memory.get_nil a.toNat

@[simp] theorem resetTo_output (p : Params) : (State.resetTo p).output = [] := rfl

@[simp] theorem resetTo_input (p : Params) : (State.resetTo p).input = p.consoleInput := rfl

theorem resetTo_run_ne_running (p : Params) : (State.resetTo p).run ≠ .running := nofun

/-- R132: `Start` is accepted right after `Reset`, and all that it does is to set the run state. -/
theorem portStart_resetTo (p : Params) :
    (State.resetTo p).portStart = some ((State.resetTo p).setRun .running) :=
  if_pos (resetTo_run p)

/-- Settles O40: both halves are the reset state at some parameters, the first at those of the state before the reset, the
second at the defaults, whose `pcStart` and `condReset` are the two stated values. -/
theorem resetValues : Obligations.ResetValues := by
  refine ⟨fun s => ?_, ?_⟩
  · exact ⟨resetTo_reg s.cfg, resetTo_pc s.cfg, resetTo_run_ne_running s.cfg,
      ⟨_, portStart_resetTo s.cfg, State.setRun_run _ _⟩, resetTo_cond s.cfg, resetTo_word s.cfg,
      resetTo_output s.cfg, resetTo_input s.cfg⟩
  · exact ⟨resetTo_reg .default, resetTo_pc .default, resetTo_run_ne_running .default, resetTo_cond .default,
      resetTo_word .default, resetTo_output .default, resetTo_input .default⟩

end Sys2Proof
end

section
/-! PROOFS. The decoder by the bits that it looks at (30_encoding.md R50, R53, R57): a word decodes to an instruction exactly
when these bits are the instruction's, so statements about encodings are left to arithmetic on the bits of words. -/

namespace Sys2Proof
open Sys2Proof.Safety

/-! The decoder's rules that the proofs above do not have. -/

theorem decode_andReg {ir : Word} (hop : bits 15 12 ir = 0b0101) (h5 : bits 5 5 ir = 0) :
    decode ir = .andReg (regField 9 ir) (regField 6 ir) (regField 0 ir) := by
  simp only [regField_eq_field]
  rw [decode_eq_of_opcode, hop, h5]
  rfl

theorem decode_notReg {ir : Word} (hop : bits 15 12 ir = 0b1001) :
    decode ir = .notReg (regField 9 ir) (regField 6 ir) := by
  simp only [regField_eq_field, decode_eq_of_opcode, hop]

theorem decode_jmp {ir : Word} (hop : bits 15 12 ir = 0b1100) : decode ir = .jmp (regField 6 ir) := by
  simp only [regField_eq_field, decode_eq_of_opcode, hop]

theorem decode_jsrr {ir : Word} (hop : bits 15 12 ir = 0b0100) (h11 : bits 11 11 ir = 0) :
    decode ir = .jsrr (regField 6 ir) := by
  rw [regField_eq_field, decode_eq_of_opcode, hop, h11]
  rfl

theorem bit5_cases (ir : Word) : bits 5 5 ir = 0 ∨ bits 5 5 ir = 1 := by
  have := bits_lt 5 5 ir
  omega

theorem bit11_cases (ir : Word) : bits 11 11 ir = 0 ∨ bits 11 11 ir = 1 := by
  have := bits_lt 11 11 ir
  omega

theorem ofNat_bits_toNat {hi lo n : Nat} (v : Word) (h : hi + 1 - lo = n) :
    (BitVec.ofNat n (bits hi lo v)).toNat = bits hi lo v := by
  subst h
  exact Nat.mod_eq_of_lt (bits_lt hi lo v)

theorem ofNat_bits_eq {hi lo n : Nat} {v : Word} {f : BitVec n} (h : bits hi lo v = f.toNat) :
    BitVec.ofNat n (bits hi lo v) = f := by
  rw [h, BitVec.ofNat_toNat, BitVec.setWidth_eq]

/-- The bits of a word that the decoder looks at, the opcode's first, are those of the instruction. -/
def HasFields (ir : Word) : Instr → Prop
  | .addReg dr sr1 sr2 => bits 15 12 ir = 1 ∧ bits 5 5 ir = 0 ∧
      bits 11 9 ir = dr.toNat ∧ bits 8 6 ir = sr1.toNat ∧ bits 2 0 ir = sr2.toNat
  | .addImm dr sr1 imm5 => bits 15 12 ir = 1 ∧ bits 5 5 ir = 1 ∧
      bits 11 9 ir = dr.toNat ∧ bits 8 6 ir = sr1.toNat ∧ bits 4 0 ir = imm5.toNat
  | .andReg dr sr1 sr2 => bits 15 12 ir = 5 ∧ bits 5 5 ir = 0 ∧
      bits 11 9 ir = dr.toNat ∧ bits 8 6 ir = sr1.toNat ∧ bits 2 0 ir = sr2.toNat
  | .andImm dr sr1 imm5 => bits 15 12 ir = 5 ∧ bits 5 5 ir = 1 ∧
      bits 11 9 ir = dr.toNat ∧ bits 8 6 ir = sr1.toNat ∧ bits 4 0 ir = imm5.toNat
  | .notReg dr sr1 => bits 15 12 ir = 9 ∧ bits 11 9 ir = dr.toNat ∧ bits 8 6 ir = sr1.toNat
  | .br nzp offset9 => bits 15 12 ir = 0 ∧ bits 11 9 ir = nzp.toNat ∧ bits 8 0 ir = offset9.toNat
  | .jmp baseR => bits 15 12 ir = 12 ∧ bits 8 6 ir = baseR.toNat
  | .jsr offset11 => bits 15 12 ir = 4 ∧ bits 11 11 ir = 1 ∧ bits 10 0 ir = offset11.toNat
  | .jsrr baseR => bits 15 12 ir = 4 ∧ bits 11 11 ir = 0 ∧ bits 8 6 ir = baseR.toNat
  | .ld dr offset9 => bits 15 12 ir = 2 ∧ bits 11 9 ir = dr.toNat ∧ bits 8 0 ir = offset9.toNat
  | .ldi dr offset9 => bits 15 12 ir = 10 ∧ bits 11 9 ir = dr.toNat ∧ bits 8 0 ir = offset9.toNat
  | .ldr dr baseR offset6 => bits 15 12 ir = 6 ∧
      bits 11 9 ir = dr.toNat ∧ bits 8 6 ir = baseR.toNat ∧ bits 5 0 ir = offset6.toNat
  | .lea dr offset9 => bits 15 12 ir = 14 ∧ bits 11 9 ir = dr.toNat ∧ bits 8 0 ir = offset9.toNat
  | .st sr offset9 => bits 15 12 ir = 3 ∧ bits 11 9 ir = sr.toNat ∧ bits 8 0 ir = offset9.toNat
  | .sti sr offset9 => bits 15 12 ir = 11 ∧ bits 11 9 ir = sr.toNat ∧ bits 8 0 ir = offset9.toNat
  | .str sr baseR offset6 => bits 15 12 ir = 7 ∧
      bits 11 9 ir = sr.toNat ∧ bits 8 6 ir = baseR.toNat ∧ bits 5 0 ir = offset6.toNat
  | .rti => bits 15 12 ir = 8
  | .res => bits 15 12 ir = 13
  | .trapGetc => bits 15 12 ir = 15 ∧ bits 7 0 ir = 0x20
  | .trapOut => bits 15 12 ir = 15 ∧ bits 7 0 ir = 0x21
  | .trapPuts => bits 15 12 ir = 15 ∧ bits 7 0 ir = 0x22
  | .trapIn => bits 15 12 ir = 15 ∧ bits 7 0 ir = 0x23
  | .trapPutsp => bits 15 12 ir = 15 ∧ bits 7 0 ir = 0x24
  | .trapHalt => bits 15 12 ir = 15 ∧ bits 7 0 ir = 0x25
  | .trapInu16 => bits 15 12 ir = 15 ∧ bits 7 0 ir = 0x26
  | .trapOutu16 => bits 15 12 ir = 15 ∧ bits 7 0 ir = 0x27
  | .trap vector8 => bits 15 12 ir = 15 ∧ bits 7 0 ir = vector8.toNat ∧ (bits 7 0 ir < 0x20 ∨ 0x27 < bits 7 0 ir)

theorem field_toNat {lo n : Nat} (v : Word) (h : 0 < n) : (field lo n v).toNat = bits (lo + n - 1) lo v := by
  rw [bits_eq_toNat_field, show lo + n - 1 + 1 - lo = n by omega]

/-- Every word has the fields of what it decodes to. -/
theorem hasFields_decode (ir : Word) : HasFields ir (decode ir) := by
  by_cases htrap : bits 15 12 ir = 15
  · obtain ⟨hv, hd⟩ | ⟨hv, hd⟩ | ⟨hv, hd⟩ | ⟨hv, hd⟩ | ⟨hv, hd⟩ | ⟨hv, hd⟩ | ⟨hv, hd⟩ | ⟨hv, hd⟩ | ⟨hv, hd⟩ :=
      decode_trap_cases htrap
    case inr.inr.inr.inr.inr.inr.inr.inr => rw [hd]; exact ⟨htrap, (field_toNat (n := 8) ir (by decide)).symm, hv⟩
    all_goals rw [hd]; exact ⟨htrap, hv⟩
  · have hlt := opcode_lt ir
    rw [decode_eq_of_opcode]
    split
    case h_16 => grind
    case h_2 hop | h_6 hop =>
      rcases bit5_cases ir with h5 | h5 <;> simp [HasFields, hop, h5, field_toNat]
    case h_5 hop => rcases bit11_cases ir with h11 | h11 <;> simp [HasFields, hop, h11, field_toNat]
    all_goals simp [HasFields, field_toNat, *]

theorem field_eq_ofNat {lo n : Nat} (v : Word) (h : 0 < n) : field lo n v = BitVec.ofNat n (bits (lo + n - 1) lo v) :=
  (ofNat_bits_eq (field_toNat v h).symm).symm

/-- A word decodes to the instruction whose fields it has. -/
theorem decode_eq_of_hasFields {ir : Word} {i : Instr} (h : HasFields ir i) : decode ir = i := by
  cases i
  case trap v =>
    obtain ⟨hop, hv, hvector⟩ := h
    have hno (k : Nat) (h1 : 0x20 ≤ k) (h2 : k ≤ 0x27) : bits 7 0 ir ≠ k := by omega
    rw [decode_trap hop, decodeTrap_eq_of_vector, ← vector8_eq_field, ofNat_bits_eq hv]
    simp [hno]
  all_goals
    simp only [HasFields] at h
    simp [decode_eq_of_opcode, h, field_eq_ofNat, decodeTrap]

theorem encode_bits (i : Instr) (hi lo : Nat) :
    bits hi lo (encode i) = encodedNumber i / 2 ^ lo % 2 ^ (hi + 1 - lo) := by
  rw [bits, encode_toNat]

theorem vector_of_wellFormed {v : BitVec 8} (hw : (Instr.trap v).wellFormed = true) :
    v.toNat < 0x20 ∨ 0x27 < v.toNat := by
  simp [Instr.wellFormed, isRoutineVector] at hw
  omega

theorem hasFields_encode {i : Instr} (hw : i.wellFormed = true) : HasFields (encode i) i := by
  cases i
  case trap v =>
    have hv := vector_of_wellFormed hw
    simp only [HasFields, encode_bits, encodedNumber]
    omega
  all_goals
    simp only [HasFields, encode_bits, encodedNumber]
    omega

/-- Settles O2: the word of an instruction is a sum of its fields, so it has these fields, and the decoder goes by them. -/
theorem decodeOfEncode : Obligations.DecodeOfEncode := fun _ hw => decode_eq_of_hasFields (hasFields_encode hw)

/-- Settles O3: with the constant bits of its layout, a word is the sum of the fields of the instruction that it decodes
to. -/
theorem encodeOfDecode : Obligations.EncodeOfDecode := by
  intro ir halu hnot hjmp hjsrr hreserved htrap
  apply BitVec.eq_of_toNat_eq
  rw [encode_toNat]
  have h := hasFields_decode ir
  have hlt : ir.toNat < 65536 := ir.isLt
  generalize decode ir = i at h
  simp only [bits] at halu hnot hjmp hjsrr hreserved htrap
  cases i <;> simp only [HasFields, bits] at h <;> simp only [encodedNumber] <;> omega

/-! The rows of the opcode table (R58): what a row's mask keeps are the bits that the decoder looks at. -/

theorem covers_iff {name : String} {format : Format} {pattern mask : Word} (ir : Word)
    (hp : pattern &&& mask = pattern) :
    OpcodeRow.covers ⟨name, format, pattern, mask⟩ ir = true ↔ (ir &&& mask).toNat = (pattern &&& mask).toNat := by
  rw [OpcodeRow.covers, beq_iff_eq, BitVec.toNat_inj, hp]

section
variable {name : String} {format : Format} {pattern : Word} (ir : Word)

theorem covers_F000 (hp : pattern &&& 0xF000 = pattern) : OpcodeRow.covers ⟨name, format, pattern, 0xF000⟩ ir =
    decide (bits 15 12 ir = bits 15 12 pattern) := by
  rw [Bool.eq_iff_iff, covers_iff ir hp, mask_F000, mask_F000, decide_eq_true_iff]
  omega

theorem covers_F020 (hp : pattern &&& 0xF020 = pattern) : OpcodeRow.covers ⟨name, format, pattern, 0xF020⟩ ir =
    decide (bits 15 12 ir = bits 15 12 pattern ∧ bits 5 5 ir = bits 5 5 pattern) := by
  rw [Bool.eq_iff_iff, covers_iff ir hp, mask_F020, mask_F020, decide_eq_true_iff]
  have := bit5_cases ir
  have := bit5_cases pattern
  omega

theorem covers_F800 (hp : pattern &&& 0xF800 = pattern) : OpcodeRow.covers ⟨name, format, pattern, 0xF800⟩ ir =
    decide (bits 15 12 ir = bits 15 12 pattern ∧ bits 11 11 ir = bits 11 11 pattern) := by
  rw [Bool.eq_iff_iff, covers_iff ir hp, mask_F800, mask_F800, decide_eq_true_iff]
  have := bit11_cases ir
  have := bit11_cases pattern
  omega

theorem covers_F0FF (hp : pattern &&& 0xF0FF = pattern) : OpcodeRow.covers ⟨name, format, pattern, 0xF0FF⟩ ir =
    decide (bits 15 12 ir = bits 15 12 pattern ∧ bits 7 0 ir = bits 7 0 pattern) := by
  rw [Bool.eq_iff_iff, covers_iff ir hp, mask_F0FF, mask_F0FF, decide_eq_true_iff]
  have := bits_lt 7 0 ir
  have := bits_lt 7 0 pattern
  omega

end

theorem bits_ofNat (hi lo n : Nat) : bits hi lo (BitVec.ofNat 16 n) = n % 65536 / 2 ^ lo % 2 ^ (hi + 1 - lo) := rfl

/-- The first row that covers a word is the row of the instruction whose fields the word has. -/
theorem find_row {ir : Word} {i : Instr} (h : HasFields ir i) :
    opcodeTable.find? (fun r => r.covers ir) = some i.row := by
  simp (disch := decide) only [opcodeTable, List.cons_append, List.nil_append, List.find?_cons, covers_F000,
    covers_F020, covers_F800, covers_F0FF]
  cases i
  case trap v =>
    obtain ⟨hop, hv, hno⟩ := h
    have hne (k : Nat) (h1 : 0x20 ≤ k) (h2 : k ≤ 0x27) : bits 7 0 ir ≠ k := by omega
    simp [hop, bits_ofNat, Instr.row, hne]
  all_goals
    simp only [HasFields] at h
    simp [h, bits_ofNat, Instr.row]

/-- Settles O4: the first row by the fields of the decoded instruction, which the decoder always answers well-formed. -/
theorem decodeFollowsOpcodeTable : Obligations.DecodeFollowsOpcodeTable :=
  fun ir => ⟨find_row (hasFields_decode ir), decode_wellFormed ir⟩

/-! The bits that the decoder does not look at (R54). -/

theorem bits_xor_and {hi lo : Nat} {m : Word} (ir x : Word) (hm : bits hi lo m = 0) :
    bits hi lo (ir ^^^ (x &&& m)) = bits hi lo ir := by
  rw [bits_eq_toNat_field] at hm
  have hm' : field lo (hi + 1 - lo) m = 0 := BitVec.eq_of_toNat_eq hm
  simp only [field] at hm'
  simp [bits_eq_toNat_field, field, BitVec.extractLsb'_xor, BitVec.extractLsb'_and, hm']

theorem hasFields_xor_ignoredBits {ir : Word} {i : Instr} (x : Word) (h : HasFields ir i) :
    HasFields (ir ^^^ (x &&& ignoredBits i)) i := by
  cases i <;> simpa (disch := decide) only [HasFields, ignoredBits, bits_xor_and] using h

/-- Settles O5: the fields of an instruction are none of its ignored bits, and the decoder goes by the fields. -/
theorem ignoredBitsDoNotMatter : Obligations.IgnoredBitsDoNotMatter :=
  fun ir x => decode_eq_of_hasFields (hasFields_xor_ignoredBits x (hasFields_decode ir))

end Sys2Proof
end

section
/-! PROOFS. The invariant (10_state.md R18, R23; 60_exceptions.md R118, R119): each effect of an instruction keeps it. -/

namespace Sys2Proof
open Sys2Proof.Machine Sys2Proof.Safety

theorem step_cases {s t : State} (h : step s = .next t) :
    (s.run ≠ .running ∧ t = s) ∨ (s.run = .running ∧ exec (decode (instrWord s)) (afterFetch s) = .next t) := by
  by_cases hrun : s.run = .running
  · exact .inr ⟨hrun, step_running hrun ▸ h⟩
  · rw [step_not_running hrun] at h
    exact .inl ⟨hrun, by cases h; rfl⟩

theorem inv_afterFetch {s : State} (h : Inv s) : Inv (afterFetch s) := ⟨h.memory, h.cond, h.loader, h.dispatch⟩

theorem run_ne_of_effects {i : Instr} {s t : State} {k : FatalKind} (h : Effects i s t) (hs : s.run ≠ .fatal k)
    (hk : k ≠ .unimplementedOpcode) : t.run ≠ .fatal k := by
  obtain hkeep | ⟨-, hhalt⟩ | ⟨-, hfatal⟩ := h.run
  · rwa [hkeep]
  · rw [hhalt]; nofun
  · rw [hfatal]
    exact fun he => hk (RunState.fatal.inj he).symm

theorem inv_of_effects {i : Instr} {s t : State} (h : Effects i s t) (hs : Inv s) : Inv t where
  memory := by
    obtain hmem | ⟨a, v, hmem, ha⟩ := h.mem
    · exact hmem ▸ hs.memory
    · exact hmem ▸ Memory.set_wf v hs.memory ha
  cond := by
    obtain hcond | hflag := h.cond
    · rw [hcond, h.cfg]; exact hs.cond
    · exact .inr hflag
  loader := run_ne_of_effects h hs.loader (by decide)
  dispatch := run_ne_of_effects h hs.dispatch (by decide)

/-- Settles O46: a step that executes has the effects of one instruction, after a fetch that changes neither memory nor
`cond` nor the run state; each of these effects keeps its part of the invariant. -/
theorem everyStepKeepsTheInvariant : Obligations.EveryStepKeepsTheInvariant := by
  intro s t hs hstep
  obtain ⟨-, rfl⟩ | ⟨-, hexec⟩ := step_cases hstep
  · exact hs
  · exact inv_of_effects (exec_effects (decode_wellFormed _) hexec) (inv_afterFetch hs)

end Sys2Proof
end

section
/-! PROOFS. What a completed step has done (70_reset_and_hazards.md R135), said once by the opcode and the trap vector. -/

namespace Sys2Proof
open Sys2Proof.Machine Sys2Proof.Safety

/-- A completed step of a running core, by the opcode and the vector of its word. -/
inductive StepEffect (s t : State) : Prop
  /-- ADD, AND, NOT, LD, LDI, LDR and LEA: no character is sent, DR and `cond` are written. -/
  | dest (v : Word) (l : List Signal) (hop : opcode s ∈ destOpcodes) (hl : l.filterMap Signal.char? = [])
      (ht : t = writeDest (regField 9 (instrWord s)) v ((afterFetch s).send l))
  /-- ST, STI and STR. -/
  | store (a : Word) (l : List Signal) (hop : opcode s = 0b0011 ∨ opcode s = 0b1011 ∨ opcode s = 0b0111)
      (ha : storeAddress s = some a) (hl : l.filterMap Signal.char? = [])
      (ht : t = memWrite a (s.reg (regField 9 (instrWord s))) ((afterFetch s).send l))
  | branch (hop : opcode s = 0b0000)
      (ht : t = if regField 9 (instrWord s) &&& s.cond = 0 then afterFetch s else (afterFetch s).setPc (pcAddress s))
  | jump (hop : opcode s = 0b1100) (ht : t = (afterFetch s).setPc (s.reg (regField 6 (instrWord s))))
  /-- JSR and JSRR. -/
  | call (target : Word) (hop : opcode s = 0b0100) (ht : t = (link (afterFetch s)).setPc target)
  /-- RTI and RES. -/
  | fatal (hop : opcode s = 0b1000 ∨ opcode s = 0b1101) (ht : t = (afterFetch s).setRun (.fatal .unimplementedOpcode))
  | halt (hop : opcode s = 0b1111) (hv : vector s = 0x25) (ht : t = (afterFetch s).setRun .halted)
  /-- GETC and INU16. -/
  | read (v : Word) (i : ConsoleInput) (k : Nat) (hop : opcode s = 0b1111) (hv : vector s = 0x20 ∨ vector s = 0x26)
      (hi : Leaves s.input k i) (ht : t = ((afterFetch s).setInput i).setReg 0 v)
  /-- IN. -/
  | readEcho (v : Word) (i : ConsoleInput) (k : Nat) (l : List Signal) (hop : opcode s = 0b1111) (hv : vector s = 0x23)
      (hi : Leaves s.input k i) (ht : t = writeDest 0 v (((afterFetch s).setInput i).send l))
  /-- OUT, PUTS, PUTSP and OUTU16. -/
  | write (l : List Signal) (hop : opcode s = 0b1111)
      (hv : vector s = 0x21 ∨ vector s = 0x22 ∨ vector s = 0x24 ∨ vector s = 0x27)
      (ht : t = (afterFetch s).send l)
  /-- TRAP with a vector of no routine. -/
  | unknown (hop : opcode s = 0b1111) (hv : vector s < 0x20 ∨ 0x27 < vector s) (ht : t = afterFetch s)

theorem StepEffect.of_alu {s t : State} {v : Word} (hop : opcode s ∈ destOpcodes)
    (ht : t = writeDest (field 9 3 (instrWord s)) v (afterFetch s)) : StepEffect s t :=
  .dest v [] hop rfl (by rw [ht, State.send_nil, regField_eq_field])

theorem StepEffect.of_load {s t : State} {ea : Word} (l : List Signal) (hop : opcode s ∈ destOpcodes)
    (hl : l.filterMap Signal.char? = [])
    (ht : t = loadFrom (field 9 3 (instrWord s)) ea ((afterFetch s).send l)) : StepEffect s t :=
  .dest _ (l ++ s.readSignals ea) hop (by rw [List.filterMap_append, hl, readSignals_chars]; rfl)
    (by rw [ht, regField_eq_field, ← State.send_send]; rfl)

theorem exec_unknown_trap {ir : Word} (hv : bits 7 0 ir < 0x20 ∨ 0x27 < bits 7 0 ir) (s : State) :
    exec (.trap (field 0 8 ir)) s = execTrapUnknown (field 0 8 ir) s :=
  execTrap_of_no_routine s (by rwa [field_toNat ir (by decide)])

theorem trap_effect {s t : State} (hop : opcode s = 0b1111)
    (h : exec (decode (instrWord s)) (afterFetch s) = .next t) : StepEffect s t := by
  obtain ⟨hv, hd⟩ | ⟨hv, hd⟩ | ⟨hv, hd⟩ | ⟨hv, hd⟩ | ⟨hv, hd⟩ | ⟨hv, hd⟩ | ⟨hv, hd⟩ | ⟨hv, hd⟩ | ⟨hv, hd⟩ :=
    decode_trap_cases hop <;> rw [hd] at h
  · obtain ⟨i, v, k, hi, rfl⟩ := execTrapGetc_next h
    exact .read v i k hop (.inl hv) hi rfl
  · cases h
    exact .write _ hop (.inl hv) rfl
  · obtain ⟨k, l, rfl, -⟩ := putStringFrom_next h
    exact .write _ hop (.inr (.inl hv)) rfl
  · obtain ⟨i, l, v, k, hi, rfl⟩ := execTrapIn_next h
    exact .readEcho v i k l hop hv hi rfl
  · obtain ⟨k, l, rfl, -⟩ := putStringFrom_next h
    exact .write _ hop (.inr (.inr (.inl hv))) rfl
  · cases h
    exact .halt hop hv rfl
  · obtain ⟨i, v, k, hi, rfl⟩ := execTrapInu16_next h
    exact .read v i k hop (.inr hv) hi rfl
  · cases h
    exact .write _ hop (.inr (.inr (.inr hv))) rfl
  · rw [exec_unknown_trap hv] at h
    exact .unknown hop hv (execTrapUnknown_next h)

theorem StepEffect.of_store {s t : State} {a : Word} (l : List Signal)
    (hop : opcode s = 0b0011 ∨ opcode s = 0b1011 ∨ opcode s = 0b0111) (ha : storeAddress s = some a)
    (hl : l.filterMap Signal.char? = []) (ht : t = memWrite a (s.reg (field 9 3 (instrWord s))) ((afterFetch s).send l)) :
    StepEffect s t :=
  .store a l hop ha hl (by rw [ht, regField_eq_field])

theorem pcRelative_afterFetch (s : State) : pcRelative (afterFetch s) (field 0 9 (instrWord s)) = pcAddress s :=
  (pcAddress_eq s).symm

theorem branch_effect {s t : State} (hop : opcode s = 0b0000)
    (h : exec (.br (field 9 3 (instrWord s)) (field 0 9 (instrWord s))) (afterFetch s) = .next t) : StepEffect s t := by
  refine .branch hop ?_
  rw [regField_eq_field]
  split
  case isTrue hnot =>
    rw [exec_br_not_taken (s := afterFetch s) _ hnot] at h
    cases h
    rfl
  case isFalse htaken =>
    rw [exec_br_taken (s := afterFetch s) _ htaken, pcRelative_afterFetch] at h
    cases h
    rfl

/-- Every completed step of a running core is one of these. -/
theorem step_effect {s t : State} (hrun : s.run = .running) (h : step s = .next t) : StepEffect s t := by
  rw [step_running hrun] at h
  by_cases htrap : opcode s = 15
  · exact trap_effect htrap h
  rw [decode_eq_of_opcode] at h
  split at h
  case h_1 hop => exact branch_effect hop h
  case h_2 hop | h_6 hop =>
    have hd : opcode s ∈ destOpcodes := by rw [opcode, hop]; decide
    split at h <;> cases h <;> exact .of_alu hd rfl
  case h_10 hop | h_15 hop =>
    cases h
    exact .of_alu (by rw [opcode, hop]; decide) rfl
  case h_3 hop | h_7 hop =>
    cases h
    exact .of_load [] (by rw [opcode, hop]; decide) rfl (by rw [State.send_nil])
  case h_11 hop =>
    cases h
    exact .of_load _ (by rw [opcode, hop]; decide) (readSignals_chars _ _) rfl
  case h_5 hop => split at h <;> cases h <;> exact .call _ hop rfl
  case h_9 hop =>
    cases h
    exact .fatal (.inl hop) rfl
  case h_14 hop =>
    cases h
    exact .fatal (.inr hop) rfl
  case h_13 hop =>
    cases h
    exact .jump hop (by rw [regField_eq_field]; rfl)
  case h_4 hop =>
    cases h
    refine .of_store (a := pcAddress s) [] (by simp [opcode, hop]) (by simp [storeAddress, opcode, hop]) rfl ?_
    rw [State.send_nil, ← pcRelative_afterFetch]
    rfl
  case h_12 hop =>
    cases h
    refine .of_store (a := s.reads (pcAddress s)) (s.readSignals (pcAddress s)) (by simp [opcode, hop])
      (by simp [storeAddress, opcode, hop]) (readSignals_chars _ _) ?_
    rw [← pcRelative_afterFetch]
    rfl
  case h_8 hop =>
    cases h
    refine .of_store [] (by simp [opcode, hop]) (by simp [storeAddress, opcode, hop]; rfl) rfl ?_
    rw [State.send_nil, baseAddress_eq]
    rfl
  case h_16 => grind [opcode, opcode_lt]

end Sys2Proof
end

section
/-! PROOFS. The rules of the whole machine that follow from what a completed step has done: the run state, and the writers
of `cond`, registers, memory, `pc` and the console. -/

namespace Sys2Proof
open Sys2Proof.Machine Sys2Proof.Safety

/-! The run state (R21). -/

theorem run_of_effect {s t : State} (hrun : s.run = .running) (h : StepEffect s t) : t.run = s.run ∨
    (s.run = .running ∧ t.run = .halted ∧ opcode s = 0b1111 ∧ vector s = 0x25) ∨
    (s.run = .running ∧ t.run = .fatal .unimplementedOpcode ∧ (opcode s = 0b1000 ∨ opcode s = 0b1101)) := by
  cases h with
  | halt hop hv ht => exact .inr (.inl ⟨hrun, ht ▸ rfl, hop, hv⟩)
  | fatal hop ht => exact .inr (.inr ⟨hrun, ht ▸ rfl, hop⟩)
  | branch hop ht => rw [ht]; split <;> exact .inl rfl
  | dest _ _ _ _ ht | store _ _ _ _ _ ht | jump _ ht | call _ _ ht | read _ _ _ _ _ _ ht | readEcho _ _ _ _ _ _ _ ht
  | write _ _ _ ht | unknown _ _ ht => exact .inl (ht ▸ rfl)

theorem step_of_halt {s : State} (hrun : s.run = .running) (hop : opcode s = 0b1111) (hv : vector s = 0x25) :
    step s = .next ((afterFetch s).setRun .halted) := by
  rw [step_running hrun, decode_eq_of_hasFields (i := .trapHalt) ⟨hop, hv⟩]
  rfl

/-- Settles O47: outside `Running` the step answers the same state; the effects of a completed step change the run state in
two cases alone, and TRAP x25 is always the first of them. -/
theorem runStateTransitions : Obligations.RunStateTransitions := by
  intro s t hstep
  obtain ⟨hrun, rfl⟩ | ⟨hrun, -⟩ := step_cases hstep
  · exact ⟨.inl rfl, fun h => absurd h hrun⟩
  · refine ⟨run_of_effect hrun (step_effect hrun hstep), fun _ ⟨hop, hv⟩ => ?_⟩
    rw [step_of_halt hrun hop hv] at hstep
    cases hstep
    rfl

/-! `cond` (R19, R20). -/

theorem writeDest_flag (d : RegIdx) (v : Word) (s : State) :
    (writeDest d v s).cond = flagsOf ((writeDest d v s).reg d).toNat ∧ oneFlag (writeDest d v s).cond := by
  rw [writeDest_reg_same, writeDest_cond]
  exact ⟨condOf_eq_flagsOf v, condOf_oneFlag v⟩

theorem mem_destOpcodes {n : Nat} : n ∈ destOpcodes ↔ n = 1 ∨ n = 5 ∨ n = 9 ∨ n = 2 ∨ n = 10 ∨ n = 6 ∨ n = 14 := by
  simp [destOpcodes]

theorem dest_of_opcode {s t : State} (h : StepEffect s t) (hop : opcode s ∈ destOpcodes) :
    ∃ v u, t = writeDest (regField 9 (instrWord s)) v u := by
  rw [mem_destOpcodes] at hop
  cases h with
  | dest v l _ _ ht => exact ⟨v, _, ht⟩
  | _ => omega

theorem readEcho_of_vector {s t : State} (h : StepEffect s t) (hop : opcode s = 0b1111) (hv : vector s = 0x23) :
    ∃ v u, t = writeDest 0 v u := by
  cases h with
  | readEcho v i k l _ _ _ ht => exact ⟨v, _, ht⟩
  | dest _ _ hd => rw [mem_destOpcodes] at hd; omega
  | _ => omega

theorem cond_of_effect {s t : State} (h : StepEffect s t) (hop : opcode s ∉ destOpcodes)
    (hv : ¬(opcode s = 0b1111 ∧ vector s = 0x23)) : t.cond = s.cond := by
  cases h with
  | dest _ _ hd => exact absurd hd hop
  | readEcho _ _ _ _ h15 h23 => exact absurd ⟨h15, h23⟩ hv
  | branch _ ht => rw [ht]; split <;> rfl
  | store _ _ _ _ _ ht | jump _ ht | call _ _ ht | fatal _ ht | halt _ _ ht | read _ _ _ _ _ _ ht | write _ _ _ ht
  | unknown _ _ ht => rw [ht]; rfl

/-- Settles O49: the two kinds of writers end in `writeDest`, whose flag is that of the register it writes; the other
effects leave `cond`. -/
theorem writersOfCond : Obligations.WritersOfCond := by
  intro s t hrun hstep
  have heffect := step_effect hrun hstep
  refine ⟨fun hop => ?_, fun ⟨hop, hv⟩ => ?_, cond_of_effect heffect⟩
  · obtain ⟨v, u, rfl⟩ := dest_of_opcode heffect hop
    exact writeDest_flag _ v u
  · obtain ⟨v, u, rfl⟩ := readEcho_of_vector heffect hop hv
    exact writeDest_flag 0 v u

/-! Registers (R14, R15). -/

/-- Settles O50: a register that is not the one the effect writes reads as before, and the other effects write none. -/
theorem writersOfRegisters : Obligations.WritersOfRegisters := by
  intro s t r hrun hstep hne
  cases step_effect hrun hstep with
  | dest v l hop hl ht =>
    refine .inl ⟨hop, ?_⟩
    by_contra hr
    exact hne (ht ▸ writeDest_reg_other _ v hr)
  | call target hop ht =>
    refine .inr (.inl ⟨hop, ?_⟩)
    by_contra hr
    exact hne (ht ▸ link_sameRegsBut (afterFetch s) r hr)
  | read v i k hop hv hi ht =>
    refine .inr (.inr ⟨hop, by simp; omega, ?_⟩)
    by_contra hr
    exact hne (ht ▸ State.setReg_reg_other _ v hr)
  | readEcho v i k l hop hv hi ht =>
    refine .inr (.inr ⟨hop, by simp [hv], ?_⟩)
    by_contra hr
    exact hne (ht ▸ writeDest_reg_other _ v hr)
  | branch hop ht =>
    refine absurd ?_ hne
    rw [ht]
    split <;> rfl
  | store _ _ _ _ _ ht | jump _ ht | fatal _ ht | halt _ _ ht | write _ _ _ ht | unknown _ _ ht =>
    exact absurd (ht ▸ rfl) hne

/-! Memory (R35, R42, R45). -/

theorem opcode_of_storeAddress {s : State} {a : Word} (h : storeAddress s = some a) :
    opcode s = 0b0011 ∨ opcode s = 0b1011 ∨ opcode s = 0b0111 := by
  by_contra hop
  rw [not_or, not_or] at hop
  simp [storeAddress, hop] at h

/-- A step that stores does so by the shared store, at the address of `storeAddress`. -/
theorem store_of_storeAddress {s t : State} {a : Word} (hrun : s.run = .running) (hstep : step s = .next t)
    (ha : storeAddress s = some a) :
    ∃ l, t = memWrite a (s.reg (regField 9 (instrWord s))) ((afterFetch s).send l) := by
  have hop := opcode_of_storeAddress ha
  cases step_effect hrun hstep with
  | store b l _ hb _ ht =>
    rw [hb] at ha
    cases ha
    exact ⟨l, ht⟩
  | dest _ _ hd => rw [mem_destOpcodes] at hd; omega
  | _ => omega

theorem word_of_effect {s t : State} (h : StepEffect s t) :
    SameMemory s t ∨ ∃ a, storeAddress s = some a ∧ SameMemoryBut a s t := by
  cases h with
  | store a l hop ha hl ht => exact .inr ⟨a, ha, fun b hb => ht ▸ memWrite_word_other _ _ hb⟩
  | branch hop ht => rw [ht]; split <;> exact .inl fun _ => rfl
  | dest _ _ _ _ ht | jump _ ht | call _ _ ht | fatal _ ht | halt _ _ ht | read _ _ _ _ _ _ ht
  | readEcho _ _ _ _ _ _ _ ht | write _ _ _ ht | unknown _ _ ht => exact .inl fun _ => ht ▸ rfl

/-- Settles O51: only the store changes a word, at the address of `storeAddress`, and where there is such an address the
step is a store. -/
theorem writersOfMemory : Obligations.WritersOfMemory := by
  refine fun s t hrun hwf hstep => ⟨fun a hne => ?_, fun a ha => ?_⟩
  · obtain hsame | ⟨b, hb, hbut⟩ := word_of_effect (step_effect hrun hstep)
    · exact absurd (hsame a) hne
    · by_cases hab : a = b
      · rw [hab, hb]
      · exact absurd (hbut a hab) hne
  · obtain ⟨l, rfl⟩ := store_of_storeAddress hrun hstep ha
    exact memWrite_word_same (s := (afterFetch s).send l) hwf a _

/-- Settles O52: the store leaves the core running, and away from `KBSR_ADDR` the fetch reads the stored word. -/
theorem storedWordIsFetchedNext : Obligations.StoredWordIsFetchedNext := by
  intro s t hrun hwf hstep ha hpc
  have hword := (writersOfMemory s t hrun hwf hstep).2 t.pc ha
  have hinstr : instrWord t = s.reg (regField 9 (instrWord s)) := (State.reads_other hpc).trans hword
  have hrun' : t.run = .running := by
    obtain ⟨l, ht⟩ := store_of_storeAddress hrun hstep ha
    rw [ht]
    exact hrun
  exact ⟨hrun', hinstr, afterFetch t, hinstr ▸ step_running hrun', rfl⟩

/-! `pc` (R16, R17). -/

theorem pc_of_effect {s t : State} (h : StepEffect s t) (h0 : opcode s ≠ 0b0000) (h4 : opcode s ≠ 0b0100)
    (h12 : opcode s ≠ 0b1100) : t.pc = (afterFetch s).pc := by
  cases h with
  | branch hop => exact absurd hop h0
  | call _ hop => exact absurd hop h4
  | jump hop => exact absurd hop h12
  | dest _ _ _ _ ht | store _ _ _ _ _ ht | fatal _ ht | halt _ _ ht | read _ _ _ _ _ _ ht | readEcho _ _ _ _ _ _ _ ht
  | write _ _ _ ht => rw [ht]; rfl
  | unknown _ _ ht => rw [ht]

theorem branch_of_opcode {s t : State} (h : StepEffect s t) (hop : opcode s = 0b0000) : t =
    if regField 9 (instrWord s) &&& s.cond = 0 then afterFetch s else (afterFetch s).setPc (pcAddress s) := by
  cases h with
  | branch _ ht => exact ht
  | dest _ _ hd => rw [mem_destOpcodes] at hd; omega
  | _ => omega

theorem jump_of_opcode {s t : State} (h : StepEffect s t) (hop : opcode s = 0b1100) :
    t = (afterFetch s).setPc (s.reg (regField 6 (instrWord s))) := by
  cases h with
  | jump _ ht => exact ht
  | dest _ _ hd => rw [mem_destOpcodes] at hd; omega
  | _ => omega

/-- Settles O53: of the effects of a step only those of BR taken, JSR, JSRR and JMP write `pc` after the fetch. -/
theorem writersOfPc : Obligations.WritersOfPc := by
  intro s t hrun hstep
  have heffect := step_effect hrun hstep
  refine ⟨fun h0 h4 h12 => ?_, fun h0 hnot => ?_, fun h0 htaken => ?_, fun h12 => ?_⟩
  · rw [pc_of_effect heffect h0 h4 h12, afterFetch_pc_toNat]
  · rw [branch_of_opcode heffect h0, if_pos hnot, afterFetch_pc_toNat]
  · rw [branch_of_opcode heffect h0, if_neg htaken, State.setPc_pc]
  · rw [jump_of_opcode heffect h12, State.setPc_pc]

/-! The console (R25, R95). -/

theorem send_output_of_no_chars {l : List Signal} (s : State) (hl : l.filterMap Signal.char? = []) :
    (s.send l).output = s.output := by
  rw [send_output, hl, List.append_nil]

theorem afterFetch_output (s : State) : (afterFetch s).output = s.output :=
  send_output_of_no_chars s (readSignals_chars s s.pc)

theorem input_of_effect {s t : State} (h : StepEffect s t)
    (hv : ¬(opcode s = 0b1111 ∧ vector s ∈ [0x20, 0x23, 0x26])) : t.input = s.input := by
  cases h with
  | read _ _ _ hop hvec => exact absurd ⟨hop, by simp; omega⟩ hv
  | readEcho _ _ _ _ hop hvec => exact absurd ⟨hop, by simp [hvec]⟩ hv
  | branch _ ht => rw [ht]; split <;> rfl
  | dest _ _ _ _ ht | store _ _ _ _ _ ht | jump _ ht | call _ _ ht | fatal _ ht | halt _ _ ht | write _ _ _ ht
  | unknown _ _ ht => rw [ht]; rfl

theorem output_of_effect {s t : State} (h : StepEffect s t)
    (hv : ¬(opcode s = 0b1111 ∧ vector s ∈ [0x21, 0x22, 0x23, 0x24, 0x27])) : t.output = s.output := by
  rw [← afterFetch_output s]
  cases h with
  | readEcho _ _ _ _ hop hvec => exact absurd ⟨hop, by simp [hvec]⟩ hv
  | write _ hop hvec => exact absurd ⟨hop, by simp; omega⟩ hv
  | branch _ ht => rw [ht]; split <;> rfl
  | dest _ _ _ hl ht | store _ _ _ _ hl ht => rw [ht]; exact send_output_of_no_chars (afterFetch s) hl
  | jump _ ht | call _ _ ht | fatal _ ht | halt _ _ ht | read _ _ _ _ _ _ ht => rw [ht]; rfl
  | unknown _ _ ht => rw [ht]

theorem output_prefix {s t : State} (h : s.signals <+: t.signals) : s.output <+: t.output :=
  h.filterMap Signal.char?

/-- Settles O54: the effects of the instruction say what any step does to signals, input and parameters; which steps leave
the output or the input is said by the opcode and the vector. -/
theorem consoleIsAppendedAndConsumed : Obligations.ConsoleIsAppendedAndConsumed := by
  intro s t hstep
  obtain ⟨-, rfl⟩ | ⟨hrun, hexec⟩ := step_cases hstep
  · exact ⟨List.prefix_rfl, List.prefix_rfl, ⟨0, leaves_zero _⟩, rfl, fun _ => ⟨rfl, rfl⟩, fun _ _ => rfl, fun _ _ => rfl⟩
  · have heffect := step_effect hrun hstep
    obtain ⟨hcfg, ⟨l, hsignals⟩, hinput, -⟩ := exec_effects (decode_wellFormed _) hexec
    have hprefix : s.signals <+: t.signals := ⟨s.readSignals s.pc ++ l, by rw [hsignals, ← List.append_assoc]; rfl⟩
    exact ⟨hprefix, output_prefix hprefix, hinput, hcfg,
      fun hop => ⟨output_of_effect heffect fun h => hop h.1, input_of_effect heffect fun h => hop h.1⟩,
      fun _ hv => input_of_effect heffect fun h => hv h.2, fun _ hv => output_of_effect heffect fun h => hv h.2⟩

end Sys2Proof
end

section
/-! PROOFS. The trap vectors (30_encoding.md R57) and sign extension (00_scope.md R10). -/

namespace Sys2Proof
open Sys2Proof.Machine Sys2Proof.Safety

/-- TRAP of a vector is what the word with that vector decodes to. -/
theorem exec_trap_vector {ir : Word} (hop : bits 15 12 ir = 0b1111) (s : State) :
    exec (.trap (BitVec.ofNat 8 (bits 7 0 ir))) s = exec (decode ir) s := by
  obtain ⟨hv, hd⟩ | ⟨hv, hd⟩ | ⟨hv, hd⟩ | ⟨hv, hd⟩ | ⟨hv, hd⟩ | ⟨hv, hd⟩ | ⟨hv, hd⟩ | ⟨hv, hd⟩ | ⟨hv, hd⟩ :=
    decode_trap_cases hop
  case inr.inr.inr.inr.inr.inr.inr.inr => rw [hd, vector8_eq_field]
  all_goals rw [hd, hv]; rfl

/-- Settles O6: opcode 1111 and the vector are the fields of one instruction, to which the word decodes. -/
theorem trapVectorSelectsRoutine : Obligations.TrapVectorSelectsRoutine := by
  intro ir hop
  exact ⟨fun hv => decode_eq_of_hasFields (i := .trapGetc) ⟨hop, hv⟩,
    fun hv => decode_eq_of_hasFields (i := .trapOut) ⟨hop, hv⟩,
    fun hv => decode_eq_of_hasFields (i := .trapPuts) ⟨hop, hv⟩,
    fun hv => decode_eq_of_hasFields (i := .trapIn) ⟨hop, hv⟩,
    fun hv => decode_eq_of_hasFields (i := .trapPutsp) ⟨hop, hv⟩,
    fun hv => decode_eq_of_hasFields (i := .trapHalt) ⟨hop, hv⟩,
    fun hv => decode_eq_of_hasFields (i := .trapInu16) ⟨hop, hv⟩,
    fun hv => decode_eq_of_hasFields (i := .trapOutu16) ⟨hop, hv⟩,
    fun hv => decode_eq_of_hasFields (i := .trap _) ⟨hop, (ofNat_bits_toNat ir rfl).symm, hv⟩,
    exec_trap_vector hop⟩

/-- The spec's sum is the library's sign extension. -/
theorem sext_eq_signExtend {N : Nat} (v : BitVec N) (h : N ≤ 15) : sext v = v.signExtend 16 := by
  apply BitVec.eq_of_toNat_eq
  have hlt : v.toNat < 2 ^ N := v.isLt
  have hpow : 2 ^ N ≤ 2 ^ 15 := Nat.pow_le_pow_right (by decide) h
  rw [sext_toNat v h, BitVec.toNat_signExtend, BitVec.toNat_setWidth, Nat.mod_eq_of_lt (by omega)]
  split <;> rfl

/-- A value that fits `N` bits as a two's-complement number is recovered from its low bits. -/
theorem toInt_setWidth_of_fits {N : Nat} {w : Word} (h1 : 1 ≤ N) (h15 : N ≤ 15) (hlo : -(2 ^ (N - 1) : Int) ≤ w.toInt)
    (hhi : w.toInt < 2 ^ (N - 1)) : (w.setWidth N).toInt = w.toInt := by
  obtain ⟨n, rfl⟩ : ∃ n, N = n + 1 := ⟨N - 1, by omega⟩
  rw [Nat.add_sub_cancel] at hlo hhi
  have hdvd : 2 ^ (n + 1) ∣ 2 ^ 16 := pow_dvd_pow 2 (by omega)
  have hhalf : ((2 ^ (n + 1) : Nat) : Int) = 2 * 2 ^ n := by push_cast; ring
  rw [BitVec.toInt_setWidth, ← Int.bmod_bmod_of_dvd hdvd, ← BitVec.toInt_eq_toNat_bmod]
  exact Int.bmod_eq_of_le (by omega) (by omega)

/-- Settles O7: the sum by its number, the other two by the library's sign extension, which keeps the signed value. -/
theorem signExtensionIsTwosComplement : Obligations.SignExtensionIsTwosComplement := by
  refine fun N h1 h15 => ⟨fun v => ⟨sext_toNat_eq_sextNat v h15, ?_⟩, fun w hlo hhi => ?_⟩
  · rw [sext_eq_signExtend v h15, BitVec.toInt_signExtend_of_le (by omega)]
  · rw [sext_eq_signExtend _ h15, ← BitVec.toInt_inj, BitVec.toInt_signExtend_of_le (by omega),
      toInt_setWidth_of_fits h1 h15 hlo hhi]

end Sys2Proof
end

section
/-! PROOFS. `MemRead` and `MemWrite` (20_memory.md R33, R34, R36, R37). -/

namespace Sys2Proof
open Sys2Proof.Machine Sys2Proof.Safety

theorem memRead_other {s : State} {a : Word} (h : a ≠ s.cfg.kbsrAddr) : memRead a s = (s.word a, s) := by
  rw [memRead, State.reads_other h, State.readSignals, if_neg h, State.send_nil]

theorem reads_kbsr {s : State} {a : Word} (h : a = s.cfg.kbsrAddr) :
    s.reads a = match s.cfg.kbsrReadPolicy with
      | .stored => s.word a
      | .sentinel => s.cfg.kbsrNoKey := by
  cases hp : s.cfg.kbsrReadPolicy with
  | stored => exact State.reads_stored a hp
  | sentinel => exact if_pos ⟨h, hp⟩

/-- A read of `KBSR_ADDR` sends one `Poll()`, which is no character. -/
theorem memRead_kbsr_signal {s : State} {a : Word} (h : a = s.cfg.kbsrAddr) :
    (memRead a s).2.polls = s.polls + 1 ∧ (memRead a s).2.output = s.output ∧ OnlySignals s (memRead a s).2 := by
  refine ⟨?_, send_output_of_no_chars s (readSignals_chars s a), send_frame s _⟩
  rw [memRead_snd, State.readSignals, if_pos h]
  simp [State.polls]

/-- Settles O9: a read away from `KBSR_ADDR` and at it, then the shared store. -/
theorem memoryReadsAndWrites : Obligations.MemoryReadsAndWrites := fun a v _ hwf =>
  ⟨memRead_other, reads_kbsr, memRead_kbsr_signal, memWrite_result hwf a v⟩

end Sys2Proof
end

section
/-! PROOFS. ADD and AND in register mode, NOT, JMP, JSRR, RTI and RES (40_alu.md R67, R69, R71; 41_control.md R75, R77;
44_reserved.md R111, R112). -/

namespace Sys2Proof
open Sys2Proof.Machine Sys2Proof.Safety

theorem exec_addReg (dr sr1 sr2 : RegIdx) (s : State) :
    exec (.addReg dr sr1 sr2) s = .next (writeDest dr (s.reg sr1 + s.reg sr2) s) := rfl

theorem exec_andReg (dr sr1 sr2 : RegIdx) (s : State) :
    exec (.andReg dr sr1 sr2) s = .next (writeDest dr (s.reg sr1 &&& s.reg sr2) s) := rfl

theorem exec_notReg (dr sr1 : RegIdx) (s : State) :
    exec (.notReg dr sr1) s = .next (writeDest dr (~~~s.reg sr1) s) := rfl

/-- Settles O10: the decoder's rule for opcode 0001 with bit 5 clear, then the sum modulo 65536. -/
theorem addRegisterMode : Obligations.AddRegisterMode := by
  refine ⟨fun ir => decode_addReg, fun dr sr1 sr2 s => ?_⟩
  exact exec_of_writeDest (P := fun v => v.toNat = ((s.reg sr1).toNat + (s.reg sr2).toNat) % 65536)
    (exec_addReg dr sr1 sr2 s) (BitVec.toNat_add _ _)

/-- Settles O12: the decoder's rule for opcode 0101 with bit 5 clear, then the AND bit by bit. -/
theorem andRegisterMode : Obligations.AndRegisterMode := by
  refine ⟨fun ir => decode_andReg, fun dr sr1 sr2 s => ?_⟩
  exact exec_of_writeDest (P := fun v => ∀ k, k < 16 → bits k k v = bits k k (s.reg sr1) * bits k k (s.reg sr2))
    (exec_andReg dr sr1 sr2 s) fun k _ => bits_and k _ _

/-- Settles O14: the decoder's rule for opcode 1001, then the complement as a number. -/
theorem notComplements : Obligations.NotComplements := by
  refine ⟨fun ir => decode_notReg, fun dr sr1 s => ?_⟩
  exact exec_of_writeDest (P := fun v => v.toNat = 65535 - (s.reg sr1).toNat) (exec_notReg dr sr1 s) BitVec.toNat_not

theorem exec_jmp (baseR : RegIdx) (s : State) : exec (.jmp baseR) s = .next (s.setPc (s.reg baseR)) := rfl

/-- Settles O16: the decoder's rule for opcode 1100, then a transfer of `pc`. -/
theorem jumpToRegister : Obligations.JumpToRegister :=
  ⟨fun _ => decode_jmp, fun baseR s => ⟨_, exec_jmp baseR s, rfl, s.setPc_reg _, setPc_frame s _⟩⟩

theorem zext_toNat {n : Nat} (v : BitVec n) (h : n ≤ 16) : (zext v).toNat = v.toNat := by
  have hpow : 2 ^ n ≤ 2 ^ 16 := Nat.pow_le_pow_right (by decide) h
  rw [zext, BitVec.toNat_setWidth, Nat.mod_eq_of_lt (by omega)]

theorem exec_jsrr (baseR : RegIdx) (s : State) :
    exec (.jsrr baseR) s = .next ((link s).setPc (jsrrTarget (link s) baseR)) := rfl

section
variable {s : State} (baseR : RegIdx)

theorem jsrrTarget_jumpContents (h : s.cfg.jsrrMode = .jumpContents) : jsrrTarget s baseR = s.reg baseR := by
  rw [jsrrTarget, h]

theorem jsrrTarget_addContents (h : s.cfg.jsrrMode = .addContents) :
    (jsrrTarget s baseR).toNat = (s.pc.toNat + (s.reg baseR).toNat) % 65536 := by
  rw [jsrrTarget, h]
  exact BitVec.toNat_add _ _

theorem jsrrTarget_addIndex (h : s.cfg.jsrrMode = .addIndex) :
    (jsrrTarget s baseR).toNat = (s.pc.toNat + baseR.toNat) % 65536 := by
  rw [jsrrTarget, h, ← zext_toNat baseR (by decide)]
  exact BitVec.toNat_add _ _

end

/-- Settles O18: JSRR is the link followed by a transfer, whose target each mode reads from the state after the link. -/
theorem jumpToSubroutineRegister : Obligations.JumpToSubroutineRegister := by
  refine ⟨fun ir => decode_jsrr, fun baseR s => ?_⟩
  exact ⟨_, exec_jsrr baseR s, link_reg_seven s, jsrrTarget_jumpContents (s := link s) baseR,
    jsrrTarget_addContents (s := link s) baseR, jsrrTarget_addIndex (s := link s) baseR, link_sameRegsBut s,
    link_setPc_frame s _⟩

theorem setRun_frame (s : State) (r : RunState) : OnlyRunState s (s.setRun r) :=
  ⟨s.setRun_reg r, s.setRun_pc r, s.setRun_cond r, s.setRun_word r, ⟨s.setRun_input r, s.setRun_signals r⟩,
    s.setRun_cfg r⟩

/-- Settles O26: the decoder's rules for the two opcodes, then the fatal condition, a change of the run state alone. -/
theorem reservedOpcodesTakeTheFatalCondition : Obligations.ReservedOpcodesTakeTheFatalCondition :=
  ⟨fun _ => decode_rti, fun _ => decode_res, fun s =>
    ⟨⟨_, rfl, rfl, setRun_frame s _⟩, ⟨_, rfl, rfl, setRun_frame s _⟩⟩⟩

end Sys2Proof
end

section
/-! PROOFS. Reset, launch and the step (70_reset_and_hazards.md R131 to R137). -/

namespace Sys2Proof
open Sys2Proof.Machine Sys2Proof.Safety

/-- The state after `Reset`, the load of an image at `PC_START` and `Start`. -/
abbrev launched (p : Params) (image : List Word) : State :=
  { State.resetTo p with mem := writeWords p.pcStart.toNat image [], run := .running }

theorem launch_oversize {p : Params} {image : List Word} (h : 65536 < p.pcStart.toNat + image.length) :
    launch p image = none := by
  rw [launch, State.portLoad, if_neg (by omega)]
  rfl

theorem launch_fits {p : Params} {image : List Word} (h : p.pcStart.toNat + image.length ≤ 65536) :
    launch p image = some (launched p image) := by
  rw [launch, State.portLoad, if_pos ⟨resetTo_run p, h⟩]
  rfl

/-- Settles O41: an image that fits is in memory from `PC_START` on, and what the loader did not write is zero as after
`Reset`. -/
theorem launchLoadsTheImage : Obligations.LaunchLoadsTheImage := by
  refine fun p image => ⟨launch_oversize, fun hfit =>
    ⟨_, launch_fits hfit, rfl, rfl, rfl, resetTo_reg p, rfl, ?_, ?_, rfl, rfl⟩⟩
  · intro i hi
    have haddr : (wrap (p.pcStart.toNat + i)).toNat = p.pcStart.toNat + i := Nat.mod_eq_of_lt (by omega)
    rw [State.word, haddr]
    exact writeWords_get Memory.wf_nil hfit i hi
  · rintro a (hbelow | habove)
    · exact (writeWords_get_below hbelow).trans (Memory.get_nil a.toNat)
    · exact (writeWords_get_above habove).trans (Memory.get_nil a.toNat)

theorem inv_resetTo (p : Params) : Inv (State.resetTo p) := ⟨Memory.wf_nil, .inl rfl, nofun, nofun⟩

/-- Settles O45: `Reset` leaves an empty memory and the reset flags, and the loader's writes keep memory canonical. -/
theorem invariantAtStart : Obligations.InvariantAtStart := by
  refine ⟨inv_resetTo, inv_resetTo .default, fun p image s hlaunch => ?_⟩
  by_cases hfit : p.pcStart.toNat + image.length ≤ 65536
  · rw [launch_fits hfit] at hlaunch
    cases hlaunch
    exact ⟨writeWords_wf Memory.wf_nil hfit, .inl rfl, nofun, nofun⟩
  · rw [launch_oversize (by omega)] at hlaunch
    cases hlaunch

/-- Settles O42: the state after the fetch, which sends the read's signal and increments `pc`. -/
theorem stepRunsTheDecodedInstruction : Obligations.StepRunsTheDecodedInstruction := fun s hrun =>
  ⟨afterFetch s, step_running hrun, afterFetch_pc_toNat s, fun _ => rfl, rfl, rfl, ⟨rfl, rfl⟩, rfl, rfl⟩

theorem withFetchWord_eq (s : State) (ir : Word) :
    s.withFetchWord 16 ir.toNat = (placeWord ir s).setRun .running := by
  rw [State.withFetchWord, Nat.mod_eq_of_lt ir.isLt, BitVec.ofNat_toNat, BitVec.setWidth_eq]

/-- A fetch reads the placed word as stored: away from `KBSR_ADDR` always, there by the policy that is then set. -/
theorem placeWord_reads {s : State} (ir : Word) (hwf : Memory.wf s.mem) : (placeWord ir s).reads s.pc = ir := by
  have hword : (placeWord ir s).word s.pc = ir := memWrite_word_same hwf s.pc ir
  by_cases hpc : s.pc = s.cfg.kbsrAddr
  · rw [State.reads_stored s.pc (by simp [placeWord, hpc]), hword]
  · rw [State.reads_other (by simp [placeWord, hpc]), hword]

/-- Settles O43: the word is stored at `pc` by the shared store, where the fetch reads it. -/
theorem placedWordIsTheNextInstruction : Obligations.PlacedWordIsTheNextInstruction := by
  intro s ir hwf
  rw [withFetchWord_eq]
  exact ⟨placeWord_reads ir hwf, rfl, fun _ => rfl, rfl, rfl, ⟨rfl, rfl⟩, fun _ ha => memWrite_word_other s ir ha⟩

theorem run_succ_of_next (M : Host.Core) {k : Nat} {s s' : M.State} (h : M.step s = .next s') :
    M.run (k + 1) s = M.run k s' := by
  rw [Host.Core.run, h]

/-- Settles O44: by induction on the number of steps, each of which answers the same state. -/
theorem noStepOutsideRunning : Obligations.NoStepOutsideRunning := by
  intro k s hrun
  induction k with
  | zero => rfl
  | succ k ih => exact (run_succ_of_next core (step_not_running hrun)).trans ih

end Sys2Proof
end

section
/-! PROOFS. PUTS and PUTSP (43_trap.md R98, R100; 70_reset_and_hazards.md R141): what the walk sends, in the spec's words, and
when it ends. -/

namespace Sys2Proof
open Sys2Proof.Machine Sys2Proof.Safety

/-! The characters of a word. -/

theorem putsChars_eq (w : Word) : putsChars w = [BitVec.ofNat 8 (bits 7 0 w)] := by
  rw [lowByte_eq_bits]; rfl

theorem putspChars_eq (w : Word) : putspChars w =
    BitVec.ofNat 8 (bits 7 0 w) :: (if bits 15 8 w = 0 then [] else [BitVec.ofNat 8 (bits 15 8 w)]) := by
  simp only [putspChars, highByte_eq_zero_iff, lowByte_eq_bits, highByte_eq_bits]
  split <;> rfl

/-! What the walk from R0 sends. -/

theorem walkSignals_puts (s : State) (k : Nat) : walkSignals putsChars (s.reg 0) s k =
    (List.range k).flatMap (fun i => s.readSignals (wrap ((s.reg 0).toNat + i)) ++
      [.conOut (BitVec.ofNat 8 (bits 7 0 (s.reads (wrap ((s.reg 0).toNat + i)))))]) := by
  simp only [walkSignals, wrap_add, putsChars_eq, List.map_cons, List.map_nil]

theorem walkSignals_putsp (s : State) (k : Nat) : walkSignals putspChars (s.reg 0) s k =
    (List.range k).flatMap (fun i =>
      let w := s.reads (wrap ((s.reg 0).toNat + i))
      s.readSignals (wrap ((s.reg 0).toNat + i)) ++ Signal.conOut (BitVec.ofNat 8 (bits 7 0 w)) ::
        (if bits 15 8 w = 0 then [] else [.conOut (BitVec.ofNat 8 (bits 15 8 w))])) := by
  simp only [walkSignals, wrap_add, putspChars_eq, List.map_cons, apply_ite (List.map Signal.conOut), List.map_nil]

/-! When the walk ends. -/

/-- With the first zero word at distance `k` from R0, the walk ends after the words before it. -/
theorem putStringFrom_of_zero (chars : Word → List Byte) {s : State} {k : Nat} (hk : k < 65536)
    (hne : ∀ i, i < k → s.reads (wrap ((s.reg 0).toNat + i)) ≠ 0) (hz : s.reads (wrap ((s.reg 0).toNat + k)) = 0) :
    ∃ t, putStringFrom chars (s.reg 0) s = .next t ∧ OnlySignals s t ∧
      t.signals = s.signals ++ walkSignals chars (s.reg 0) s k ++ s.readSignals (wrap ((s.reg 0).toNat + k)) ∧
      t.output = s.output ++ (List.range k).flatMap (fun i => chars (s.reads (wrap ((s.reg 0).toNat + i)))) := by
  simp only [wrap_add] at hne hz ⊢
  refine ⟨_, by rw [putStringFrom, putString_of_zero chars hk hne hz], send_frame s _, ?_, ?_⟩
  · rw [State.send_signals, List.append_assoc]
  · rw [send_output, List.filterMap_append, walkSignals_chars, readSignals_chars, List.append_nil]

theorem putStringFrom_of_no_zero (chars : Word → List Byte) (a : Word) {s : State} (hne : ∀ b : Word, s.reads b ≠ 0) :
    putStringFrom chars a s = .fault (.stringNeverEnds s.signals (walkSignals chars a s 65536)) := by
  obtain ⟨k, -, -, hz, -⟩ | ⟨-, h⟩ := putStringFrom_cases chars a s
  · exact absurd hz (hne _)
  · exact h

theorem putStringFrom_fault {chars : Word → List Byte} {a : Word} {s : State} {f : Fault}
    (h : putStringFrom chars a s = .fault f) :
    (∃ turn, f = .stringNeverEnds s.signals turn) ∧ ∀ b : Word, s.reads b ≠ 0 := by
  obtain ⟨k, -, -, -, hk⟩ | ⟨hne, hf⟩ := putStringFrom_cases chars a s
  · rw [hk] at h; cases h
  · rw [hf] at h; cases h
    exact ⟨⟨_, rfl⟩, hne⟩

/-- Settles O29: the walk with the low byte of each word. -/
theorem putsWritesTheString : Obligations.PutsWritesTheString := by
  intro s k hk hne hz
  obtain ⟨t, hexec, hframe, hsignals, houtput⟩ := putStringFrom_of_zero putsChars hk hne hz
  rw [walkSignals_puts] at hsignals
  simp only [putsChars_eq, ← List.map_eq_flatMap] at houtput
  exact ⟨t, hexec, hframe, hsignals, houtput⟩

/-- Settles O31: the walk with the low byte and the nonzero high byte of each word. -/
theorem putspWritesThePackedString : Obligations.PutspWritesThePackedString := by
  intro s k hk hne hz
  obtain ⟨t, hexec, hframe, hsignals, houtput⟩ := putStringFrom_of_zero putspChars hk hne hz
  rw [walkSignals_putsp] at hsignals
  simp only [putspChars_eq] at houtput
  exact ⟨t, hexec, hframe, hsignals, houtput⟩

theorem putStringFrom_endless_iff (chars : Word → List Byte) (a : Word) (s : State) :
    (∃ turn, putStringFrom chars a s = .fault (.stringNeverEnds s.signals turn)) ↔ ∀ b : Word, s.reads b ≠ 0 :=
  ⟨fun ⟨_, h⟩ => (putStringFrom_fault h).2, fun hne => ⟨_, putStringFrom_of_no_zero chars a hne⟩⟩

/-- Settles O32: both routines are the same walk, which stops as endless exactly when no word reads as zero. -/
theorem endlessStringsExactlyWithoutZeroWord : Obligations.EndlessStringsExactlyWithoutZeroWord := fun s =>
  ⟨putStringFrom_endless_iff putsChars (s.reg 0) s, putStringFrom_endless_iff putspChars (s.reg 0) s⟩

/-- Settles O59: `k` turns of the walk are the walk over `65536 * k` words. -/
theorem endlessStringsWriteForEver : Obligations.EndlessStringsWriteForEver := by
  refine fun s hne => ⟨⟨_, putStringFrom_of_no_zero putsChars (s.reg 0) hne, fun k => ?_⟩,
    ⟨_, putStringFrom_of_no_zero putspChars (s.reg 0) hne, fun k => ?_⟩⟩
  · rw [← walkSignals_turns, walkSignals_puts]
  · rw [← walkSignals_turns, walkSignals_putsp]

end Sys2Proof
end

section
/-! PROOFS. GETC, IN, HALT and TRAP with an unknown vector (43_trap.md R96, R99, R101, R104, R105). -/

namespace Sys2Proof
open Sys2Proof.Machine Sys2Proof.Safety

/-- The end of GETC and INU16: R0 and the unread input are written, nothing else. -/
theorem setInput_setReg_frame (s : State) (j : ConsoleInput) (v : Word) :
    SameRegsBut 0 s ((s.setInput j).setReg 0 v) ∧ KeepsPcFlagsMemory s ((s.setInput j).setReg 0 v) ∧
    ((s.setInput j).setReg 0 v).signals = s.signals :=
  ⟨fun _ hr => State.setReg_reg_other (s.setInput j) v hr, ⟨rfl, rfl, fun _ => rfl, rfl, rfl⟩, rfl⟩

theorem conIn_of_unread {i : ConsoleInput} {c : Byte} (h : unread i 0 = some c) :
    ∃ rest, conIn i = some (c, rest) ∧ Leaves i 1 rest := by
  cases hc : conIn i with
  | none => rw [conIn_none.1 hc] at h; cases h
  | some x =>
    obtain ⟨c', rest⟩ := x
    obtain ⟨hfirst, hleaves⟩ := conIn_some hc
    rw [hfirst] at h
    cases h
    exact ⟨rest, rfl, hleaves⟩

theorem exec_trapGetc_some {s : State} {c : Byte} {rest : ConsoleInput} (h : conIn s.input = some (c, rest)) :
    exec .trapGetc s = .next ((s.setInput rest).setReg 0 (zext c)) := by
  simp only [exec, execTrapGetc, h]

theorem exec_trapIn_some {s : State} {c : Byte} {rest : ConsoleInput} (h : conIn s.input = some (c, rest)) :
    exec .trapIn s = .next (writeDest 0 (zext c) ((s.setInput rest).conOut c)) := by
  simp only [exec, execTrapIn, h]

/-- Settles O27: the decoder's rule for TRAP, then the first character, zero-extended, in R0. -/
theorem getcReadsOneCharacter : Obligations.GetcReadsOneCharacter := by
  refine ⟨decode_trap rfl, fun s c hc => ?_⟩
  obtain ⟨rest, hrest, hleaves⟩ := conIn_of_unread hc
  obtain ⟨hregs, hkeeps, hsignals⟩ := setInput_setReg_frame s rest (zext c)
  refine ⟨_, exec_trapGetc_some hrest, ?_, hleaves, hregs, hkeeps, hsignals⟩
  rw [State.setReg_reg_same, zext_toNat c (by decide)]

theorem flagsOf_char_ne_negative (c : Byte) : flagsOf c.toNat ≠ 0b100 := by
  have hlt : c.toNat < 32768 := Nat.lt_trans c.isLt (by decide)
  rw [flagsOf, if_pos hlt]
  split <;> decide

/-- Settles O30: as GETC, with the echo and the flag of the character, whose bit 15 is clear. -/
theorem inReadsAndEchoes : Obligations.InReadsAndEchoes := by
  refine ⟨decode_trap rfl, fun s c hc => ?_⟩
  obtain ⟨rest, hrest, hleaves⟩ := conIn_of_unread hc
  have hcond : condOf (zext c) = flagsOf c.toNat := by rw [condOf_eq_flagsOf, zext_toNat c (by decide)]
  refine ⟨_, exec_trapIn_some hrest, ?_, hcond, ?_, hleaves, rfl,
    fun _ hr => writeDest_reg_other _ _ hr, rfl, fun _ => rfl, rfl, rfl⟩
  · rw [writeDest_reg_same, zext_toNat c (by decide)]
  · rw [writeDest_cond, hcond]
    exact flagsOf_char_ne_negative c

/-- Settles O33: the decoder's rule for TRAP, then a change of the run state alone. -/
theorem haltStopsTheRun : Obligations.HaltStopsTheRun :=
  ⟨decode_trap rfl, fun s => ⟨_, rfl, rfl, setRun_frame s .halted⟩⟩

/-- Settles O39: for a vector of no routine TRAP is the unknown-vector case, which goes by the policy. -/
theorem unknownTrapVectorFollowsThePolicy : Obligations.UnknownTrapVectorFollowsThePolicy := by
  intro v s hv
  have hexec : exec (.trap v) s = execTrapUnknown v s := execTrap_of_no_routine s hv
  refine ⟨fun hp => ?_, fun hp => ?_⟩ <;> rw [hexec, execTrapUnknown, hp]

end Sys2Proof
end

section
/-! PROOFS. INU16 and OUTU16 (43_trap.md R102, R103, R105): what INU16 does for each answer of `ParseU16`, and what the
default grammar and another configuration function answer. -/

namespace Sys2Proof
open Sys2Proof.Machine Sys2Proof.Safety

/-! INU16 by the answer of `ParseU16`. -/

theorem inu16Sets_of_exec {s : State} {v : Word} {j : ConsoleInput} {k : Nat} (hj : Leaves s.input k j)
    (h : exec .trapInu16 s = .next ((s.setInput j).setReg 0 v)) : Inu16Sets s v k := by
  obtain ⟨hregs, hkeeps, hsignals⟩ := setInput_setReg_frame s j v
  exact ⟨_, h, State.setReg_reg_same _ 0 v, hj, hregs, hkeeps, hsignals⟩

theorem inu16Sets_of_number {s : State} {v : Word} {j : ConsoleInput} {k : Nat} (hj : Leaves s.input k j)
    (h : parseU16 s.cfg.parseU16 s.input = .number v j) : Inu16Sets s v k :=
  inu16Sets_of_exec hj (by simp only [exec, execTrapInu16, h])

theorem inu16BadInput_of_bad {s : State} {j : ConsoleInput} {k : Nat} (hj : Leaves s.input k j)
    (h : parseU16 s.cfg.parseU16 s.input = .bad j) : Inu16BadInput s k :=
  ⟨fun hp => by simp only [exec, execTrapInu16, h, hp], fun hp => by simp only [exec, execTrapInu16, h, hp],
    fun _ hp => inu16Sets_of_exec hj (by simp only [exec, execTrapInu16, h, hp])⟩

theorem inu16AtEnd_of_unfinished {s : State} (htail : s.input.tail = .ended)
    (h : parseU16 s.cfg.parseU16 s.input = .unfinished) : Inu16AtEnd s := by
  refine ⟨fun hp => by simp only [exec, execTrapInu16, h, htail, atEndOfInput, hp, if_true], fun v hp => ?_⟩
  obtain ⟨hregs, hkeeps, hsignals⟩ := setInput_setReg_frame s ⟨[], .ended⟩ v
  exact ⟨_, by simp only [exec, execTrapInu16, h, htail, atEndOfInput, hp, if_true], State.setReg_reg_same _ 0 v,
    fun _ => unread_ended rfl (Nat.zero_le _), hregs, hkeeps, hsignals⟩

theorem inu16_neverEnds_of_unfinished {s : State} (htail : s.input.tail ≠ .ended)
    (h : parseU16 s.cfg.parseU16 s.input = .unfinished) : exec .trapInu16 s = .fault (.numberNeverEnds s.signals) := by
  simp only [exec, execTrapInu16, h, htail, if_false]

/-- A finite input ends, an endless one does not. -/
theorem tail_ended_iff (i : ConsoleInput) : i.tail = .ended ↔ ∃ n, unread i n = none :=
  ⟨fun h => ⟨_, unread_ended h le_rfl⟩, fun ⟨_, h⟩ => (unread_eq_none h).1⟩

/-! The default grammar. -/

theorem parseU16_decimal {s : State} (h : s.cfg.parseU16 = .decimal) :
    parseU16 s.cfg.parseU16 s.input = parseDecimal s.input := by
  rw [h]; rfl

theorem inu16Sets_of_numeral {s : State} {lead : List Byte} {digits : List Nat} (hcfg : s.cfg.parseU16 = .decimal)
    (hlead : ∀ c ∈ lead, c ∈ blanks) (hne : digits ≠ []) (hdigits : ∀ d ∈ digits, d < 10)
    (hval : numeralValue digits ≤ 65535) (hbegins : Begins s.input (lead ++ digits.map digitChar))
    (hstop : noDigitAt s.input (lead.length + digits.length)) :
    Inu16Sets s (wrap (numeralValue digits)) (lead.length + digits.length) := by
  obtain ⟨j, hj, hparse⟩ := parseDecimal_eq (fun c hc => (isBlank_iff c).2 (hlead c hc)) hdigits hbegins hstop
    (fun h => absurd h hne)
  rw [if_neg (by simp [hne]; omega)] at hparse
  exact inu16Sets_of_number hj ((parseU16_decimal hcfg).trans hparse)

/-- Settles O34: the decoder's rule for TRAP, then the number that the default grammar finds. -/
theorem inu16ReadsANumber : Obligations.Inu16ReadsANumber :=
  ⟨decode_trap rfl, fun _ _ _ hcfg hlead hne hdigits hval hbegins hstop =>
    inu16Sets_of_numeral hcfg hlead hne hdigits hval hbegins hstop⟩

/-- Settles O35: in both kinds of bad input the default grammar answers that the text is bad. -/
theorem inu16BadInputFollowsThePolicy : Obligations.Inu16BadInputFollowsThePolicy := by
  intro s lead digits hcfg hlead hdigits hbegins hstop hbad
  have hnext : digits = [] → ∃ c, unread s.input (lead.length + digits.length) = some c ∧ isBlank c = false := by
    rintro rfl
    obtain hval | ⟨-, c, hc, hblank⟩ := hbad
    · exact absurd hval (by decide)
    · exact ⟨c, hc, by simpa [← isBlank_iff] using hblank⟩
  obtain ⟨j, hj, hparse⟩ := parseDecimal_eq (fun c hc => (isBlank_iff c).2 (hlead c hc)) hdigits hbegins hstop hnext
  rw [if_pos (hbad.symm.imp_left And.left)] at hparse
  exact inu16BadInput_of_bad hj ((parseU16_decimal hcfg).trans hparse)

theorem unread_ne_none_of_textNeverEnds {i : ConsoleInput} (h : TextNeverEnds i) (n : Nat) : unread i n ≠ none := by
  intro hn
  have hblank : ¬blankAt i n := fun ⟨c, _, hc⟩ => by rw [hn] at hc; cases hc
  have hdigit : ¬digitAt i n := fun ⟨d, _, hd⟩ => by rw [hn] at hd; cases hd
  obtain hall | ⟨k, hbefore, hafter⟩ := h
  · exact hblank (hall n)
  · rcases Nat.lt_or_ge n k with hlt | hge
    · exact hblank (hbefore n hlt)
    · exact hdigit (hafter n hge)

theorem tail_ne_ended_of_textNeverEnds {i : ConsoleInput} (h : TextNeverEnds i) : i.tail ≠ .ended := by
  rw [Ne, tail_ended_iff]
  exact fun ⟨n, hn⟩ => unread_ne_none_of_textNeverEnds h n hn

/-- Settles O57: on such a text the default grammar is never finished, and the input has no end. -/
theorem inu16NeverCompletesOnEndlessText : Obligations.Inu16NeverCompletesOnEndlessText := fun _ hcfg htext =>
  inu16_neverEnds_of_unfinished (tail_ne_ended_of_textNeverEnds htext)
    ((parseU16_decimal hcfg).trans (parseDecimal_unfinished.2 (.inr htext)))

/-! Another configuration function. -/

theorem parseU16_exhausted (g : ParseGrammar) {i : ConsoleInput} (h : unread i 0 = none) :
    parseU16 g i = .unfinished := by
  cases g with
  | decimal => exact parseDecimal_unfinished.2 (.inl ⟨0, h, fun m hm => absurd hm (Nat.not_lt_zero m)⟩)
  | other => simp only [parseU16, parseOther, h, Option.isNone_none, if_true]

/-- Settles O58: on an input that is not exhausted `ParseU16` gives the function's answer, with what it consumes dropped
from the front. -/
theorem inu16FollowsTheConfigurationFunction : Obligations.Inu16FollowsTheConfigurationFunction := by
  intro s hcfg hne
  have hparse : parseU16 s.cfg.parseU16 s.input = parseOther s.input := by rw [hcfg]; rfl
  rw [parseOther, if_neg (by rwa [Option.isNone_iff_eq_none])] at hparse
  split <;> rename_i h <;> rw [h] at hparse
  · exact inu16Sets_of_number (dropChars_leaves _ _) hparse
  · exact inu16BadInput_of_bad (dropChars_leaves _ _) hparse
  · exact ⟨fun hend => inu16AtEnd_of_unfinished ((tail_ended_iff _).2 hend) hparse,
      fun hendless => inu16_neverEnds_of_unfinished (fun ht => (tail_ended_iff _).1 ht |>.elim hendless) hparse⟩

/-! The end of the console input (R105). -/

theorem inu16AtEnd_of_atEnd {s : State} (h : AtEndForInu16 s) : Inu16AtEnd s := by
  obtain hnone | ⟨hcfg, n, hnone, hblank⟩ := h
  · exact inu16AtEnd_of_unfinished ((tail_ended_iff _).2 ⟨0, hnone⟩) (parseU16_exhausted _ hnone)
  · exact inu16AtEnd_of_unfinished ((tail_ended_iff _).2 ⟨n, hnone⟩)
      ((parseU16_decimal hcfg).trans (parseDecimal_unfinished.2 (.inl ⟨n, hnone, hblank⟩)))

theorem exec_trapGetc_none {s : State} (h : unread s.input 0 = none) :
    exec .trapGetc s = atEndOfInput s (fun v => .next (s.setReg 0 v)) := by
  simp only [exec, execTrapGetc, conIn_none.2 h]

theorem exec_trapIn_none {s : State} (h : unread s.input 0 = none) :
    exec .trapIn s = atEndOfInput s (fun v => .next (writeDest 0 v s)) := by
  simp only [exec, execTrapIn, conIn_none.2 h]

theorem atEndOfInput_stuck {s : State} (h : s.cfg.eofPolicy = .stuck) (k : Word → Result) :
    atEndOfInput s k = .fault (.inputExhausted s.signals) := by
  simp only [atEndOfInput, h]

theorem atEndOfInput_value {s : State} {v : Word} (h : s.cfg.eofPolicy = .value v) (k : Word → Result) :
    atEndOfInput s k = k v := by
  simp only [atEndOfInput, h]

/-- Settles O36: GETC and IN go by the policy where `ConIn()` answers none, INU16 where `ParseU16` is not finished. -/
theorem endOfInputFollowsThePolicy : Obligations.EndOfInputFollowsThePolicy := by
  intro s
  refine ⟨fun hend hp => ⟨?_, ?_⟩, fun v hend hp => ?_, fun v hend hp => ?_, inu16AtEnd_of_atEnd⟩
  · rw [exec_trapGetc_none hend, atEndOfInput_stuck hp]
  · rw [exec_trapIn_none hend, atEndOfInput_stuck hp]
  · obtain ⟨hregs, hkeeps, hsignals⟩ := setInput_setReg_frame s s.input v
    exact ⟨_, by rw [exec_trapGetc_none hend, atEndOfInput_value hp], s.setReg_reg_same 0 v, hregs, hkeeps, rfl, hsignals⟩
  · exact ⟨_, by rw [exec_trapIn_none hend, atEndOfInput_value hp], writeDest_reg_same s 0 v, condOf_eq_flagsOf v,
      writeDest_frame 0 v s, rfl, rfl⟩

/-! OUTU16 (R103). -/

theorem exec_trapOutu16 (s : State) : exec .trapOutu16 s =
    .next (s.send ((decimalDigits 5 (s.reg 0).toNat).map fun d => Signal.conOut (digitChar d))) := by
  simp only [exec, execTrapOutu16, decimalText, List.map_map]
  rfl

/-- Settles O37: the decoder's rule for TRAP, then the numeral of R0. -/
theorem outu16WritesTheNumeral : Obligations.Outu16WritesTheNumeral := by
  refine ⟨decode_trap rfl, fun s => ?_⟩
  obtain ⟨hdigits, hval, hmin, hmax, hlead⟩ := decimalDigits_word (s.reg 0)
  exact ⟨_, _, exec_trapOutu16 s, hdigits, hval, hmin, hmax, hlead, rfl, send_frame s _⟩

theorem text_of_outu16 {s u : State} {text : List Byte} (h : exec .trapOutu16 s = .next u)
    (htext : u.output = s.output ++ text) : text = (decimalDigits 5 (s.reg 0).toNat).map digitChar := by
  cases h
  rw [send_output, conOut_chars] at htext
  exact (List.append_cancel_left htext).symm

/-- Settles O38: what OUTU16 writes is a numeral of R0, and the default grammar reads any numeral back. -/
theorem inu16InvertsOutu16 : Obligations.Inu16InvertsOutu16 := by
  intro s u text lead hexec htext hlead w hcfg hbegins hstop
  obtain rfl := text_of_outu16 hexec htext
  obtain ⟨hdigits, hval, hmin, -, -⟩ := decimalDigits_word (s.reg 0)
  rw [List.length_map] at hstop ⊢
  have hsets := inu16Sets_of_numeral hcfg hlead (List.length_pos_iff.1 hmin) hdigits (by rw [hval]; omega) hbegins hstop
  rwa [hval, wrap, BitVec.ofNat_toNat, BitVec.setWidth_eq] at hsets

end Sys2Proof
end

section
/-! PROOFS. Where a step stops (60_exceptions.md R115; 43_trap.md R104, R105; 70_reset_and_hazards.md R141), and that the
unread input is seen by GETC, IN and INU16 alone (10_state.md R25). -/

namespace Sys2Proof
open Sys2Proof.Machine Sys2Proof.Safety

/-! Instructions that complete in every state. -/

theorem exec_decode_completes {ir : Word} (hop : bits 15 12 ir ≠ 0b1111) (s : State) :
    ∃ t, exec (decode ir) s = .next t := by
  have h := hasFields_decode ir
  generalize decode ir = i at h
  cases i
  case trapGetc | trapOut | trapPuts | trapIn | trapPutsp | trapHalt | trapInu16 | trapOutu16 | trap => exact absurd h.1 hop
  all_goals exact ⟨_, rfl⟩

theorem step_completes {s : State} (h : opcode s ≠ 0b1111) : ∃ t, step s = .next t := by
  by_cases hrun : s.run = .running
  · rw [step_running hrun]
    exact exec_decode_completes h (afterFetch s)
  · exact ⟨s, step_not_running hrun⟩

/-- A step that answers no next state is a TRAP of a running core. -/
theorem trap_of_stop {s : State} (h : ∀ t, step s ≠ .next t) : s.run = .running ∧ opcode s = 0b1111 := by
  refine ⟨?_, ?_⟩ <;> by_contra hc
  · exact h s (step_not_running hc)
  · obtain ⟨t, ht⟩ := step_completes hc
    exact h t ht

/-! Faults of the trap routines. -/

theorem atEndOfInput_fault {s : State} {k : Word → Result} {f : Fault} (h : atEndOfInput s k = .fault f)
    (hk : ∀ v, k v ≠ .fault f) : f = .inputExhausted s.signals ∧ s.cfg.eofPolicy = .stuck := by
  rw [atEndOfInput] at h
  split at h
  case h_1 hp => cases h; exact ⟨rfl, hp⟩
  case h_2 v _ => exact absurd h (hk v)

/-- A routine that completes with a character, and else goes by the policy, stops only at the end of the input. -/
theorem fault_of_read {s : State} {r : Result} {k : Word → Result} {f : Fault}
    (hsome : ∀ c rest, conIn s.input = some (c, rest) → ∃ t, r = .next t)
    (hnone : unread s.input 0 = none → r = atEndOfInput s k) (hk : ∀ v, k v ≠ .fault f) (h : r = .fault f) :
    f = .inputExhausted s.signals ∧ s.cfg.eofPolicy = .stuck ∧ unread s.input 0 = none := by
  cases hc : unread s.input 0 with
  | some c =>
    obtain ⟨rest, hrest, -⟩ := conIn_of_unread hc
    obtain ⟨t, ht⟩ := hsome c rest hrest
    rw [ht] at h
    cases h
  | none =>
    obtain ⟨hf, hp⟩ := atEndOfInput_fault (hnone hc ▸ h) hk
    exact ⟨hf, hp, rfl⟩

theorem getc_fault {s : State} {f : Fault} (h : exec .trapGetc s = .fault f) :
    f = .inputExhausted s.signals ∧ s.cfg.eofPolicy = .stuck ∧ unread s.input 0 = none :=
  fault_of_read (fun _ _ hc => ⟨_, exec_trapGetc_some hc⟩) exec_trapGetc_none (fun _ => nofun) h

theorem in_fault {s : State} {f : Fault} (h : exec .trapIn s = .fault f) :
    f = .inputExhausted s.signals ∧ s.cfg.eofPolicy = .stuck ∧ unread s.input 0 = none :=
  fault_of_read (fun _ _ hc => ⟨_, exec_trapIn_some hc⟩) exec_trapIn_none (fun _ => nofun) h

/-- INU16 never completes for three causes: a finite input that ends before the text is complete, an endless one that does,
bad input. -/
theorem inu16_fault {s : State} {f : Fault} (h : exec .trapInu16 s = .fault f) :
    (f = .inputExhausted s.signals ∧ s.cfg.eofPolicy = .stuck ∧ s.input.tail = .ended ∧
      parseU16 s.cfg.parseU16 s.input = .unfinished) ∨
    (f = .numberNeverEnds s.signals ∧ s.input.tail ≠ .ended ∧ parseU16 s.cfg.parseU16 s.input = .unfinished) ∨
    (f = .inu16BadInput s.signals ∧ s.cfg.inu16BadInputPolicy = .stuck) := by
  simp only [exec, execTrapInu16] at h
  split at h
  case h_1 => cases h
  case h_2 => split at h <;> cases h; exact .inr (.inr ⟨rfl, ‹_›⟩)
  case h_3 hparse =>
    split at h
    case isTrue htail =>
      obtain ⟨hf, hp⟩ := atEndOfInput_fault h fun _ => nofun
      exact .inl ⟨hf, hp, htail, hparse⟩
    case isFalse htail => cases h; exact .inr (.inl ⟨rfl, htail, hparse⟩)

theorem atEnd_of_unfinished {s : State} (hcfg : s.cfg.parseU16 = .decimal) (htail : s.input.tail = .ended)
    (h : parseU16 s.cfg.parseU16 s.input = .unfinished) : AtEndForInu16 s := by
  rw [parseU16_decimal hcfg, parseDecimal_unfinished] at h
  obtain hend | htext := h
  · exact .inr ⟨hcfg, hend⟩
  · exact absurd htail (tail_ne_ended_of_textNeverEnds htext)

theorem textNeverEnds_of_unfinished {s : State} (hcfg : s.cfg.parseU16 = .decimal) (htail : s.input.tail ≠ .ended)
    (h : parseU16 s.cfg.parseU16 s.input = .unfinished) : TextNeverEnds s.input := by
  rw [parseU16_decimal hcfg, parseDecimal_unfinished] at h
  obtain ⟨n, hend, -⟩ | htext := h
  · exact absurd ((tail_ended_iff _).2 ⟨n, hend⟩) htail
  · exact htext

theorem unknown_trap_no_fault (v : BitVec 8) (s : State) (f : Fault) : execTrapUnknown v s ≠ .fault f := by
  unfold execTrapUnknown
  split <;> nofun

/-! Refusals of the trap routines. -/

theorem inu16_refused {s : State} {r : Refusal} (h : exec .trapInu16 s = .refused r) :
    r = .inu16BadInput ∧ s.cfg.inu16BadInputPolicy = .refuse := by
  simp only [exec, execTrapInu16, atEndOfInput] at h
  split at h
  case h_1 => cases h
  case h_2 => split at h <;> cases h; exact ⟨rfl, ‹_›⟩
  case h_3 => split at h <;> [split at h; skip] <;> cases h

theorem getc_not_refused (s : State) (r : Refusal) : exec .trapGetc s ≠ .refused r := by
  simp only [exec, execTrapGetc, atEndOfInput]
  split <;> [skip; split] <;> nofun

theorem in_not_refused (s : State) (r : Refusal) : exec .trapIn s ≠ .refused r := by
  simp only [exec, execTrapIn, atEndOfInput]
  split <;> [skip; split] <;> nofun

theorem putStringFrom_not_refused (chars : Word → List Byte) (a : Word) (s : State) (r : Refusal) :
    putStringFrom chars a s ≠ .refused r := by
  obtain ⟨k, -, -, -, h⟩ | ⟨-, h⟩ := putStringFrom_cases chars a s <;> rw [h] <;> nofun

theorem unknown_trap_refused {v : BitVec 8} {s : State} {r : Refusal} (h : execTrapUnknown v s = .refused r) :
    r = .unknownTrapVector v ∧ s.cfg.unknownTrapPolicy = .refuse := by
  unfold execTrapUnknown at h
  split at h <;> cases h
  exact ⟨rfl, ‹_›⟩

/-! A TRAP that stops. -/

theorem trap_fault {ir : Word} {s : State} {f : Fault} (hop : bits 15 12 ir = 0b1111)
    (h : exec (decode ir) s = .fault f) :
    f = .inputExhausted s.signals ∧ s.cfg.eofPolicy = .stuck ∧
        (bits 7 0 ir ∈ [0x20, 0x23] ∧ unread s.input 0 = none ∨
          bits 7 0 ir = 0x26 ∧ (∃ n, unread s.input n = none) ∧ (s.cfg.parseU16 = .decimal → AtEndForInu16 s)) ∨
      f = .numberNeverEnds s.signals ∧ bits 7 0 ir = 0x26 ∧ (∀ n, unread s.input n ≠ none) ∧
        (s.cfg.parseU16 = .decimal → TextNeverEnds s.input) ∨
      (∃ turn, f = .stringNeverEnds s.signals turn) ∧ bits 7 0 ir ∈ [0x22, 0x24] ∧ (∀ a : Word, s.reads a ≠ 0) ∨
      f = .inu16BadInput s.signals ∧ bits 7 0 ir = 0x26 ∧ s.cfg.inu16BadInputPolicy = .stuck := by
  obtain ⟨hv, hd⟩ | ⟨hv, hd⟩ | ⟨hv, hd⟩ | ⟨hv, hd⟩ | ⟨hv, hd⟩ | ⟨hv, hd⟩ | ⟨hv, hd⟩ | ⟨hv, hd⟩ | ⟨hv, hd⟩ :=
    decode_trap_cases hop <;> rw [hd] at h
  · obtain ⟨hf, hp, hend⟩ := getc_fault h
    exact .inl ⟨hf, hp, .inl ⟨by simp [hv], hend⟩⟩
  · cases h
  · obtain ⟨hf, hne⟩ := putStringFrom_fault h
    exact .inr (.inr (.inl ⟨hf, by simp [hv], hne⟩))
  · obtain ⟨hf, hp, hend⟩ := in_fault h
    exact .inl ⟨hf, hp, .inl ⟨by simp [hv], hend⟩⟩
  · obtain ⟨hf, hne⟩ := putStringFrom_fault h
    exact .inr (.inr (.inl ⟨hf, by simp [hv], hne⟩))
  · cases h
  · obtain ⟨hf, hp, htail, hparse⟩ | ⟨hf, htail, hparse⟩ | ⟨hf, hp⟩ := inu16_fault h
    · exact .inl ⟨hf, hp, .inr ⟨hv, (tail_ended_iff _).1 htail, fun hcfg => atEnd_of_unfinished hcfg htail hparse⟩⟩
    · exact .inr (.inl ⟨hf, hv, fun n hn => htail ((tail_ended_iff _).2 ⟨n, hn⟩),
        fun hcfg => textNeverEnds_of_unfinished hcfg htail hparse⟩)
    · exact .inr (.inr (.inr ⟨hf, hv, hp⟩))
  · cases h
  · rw [exec_unknown_trap hv] at h
    exact absurd h (unknown_trap_no_fault _ s f)

theorem trap_refused {ir : Word} {s : State} {r : Refusal} (hop : bits 15 12 ir = 0b1111)
    (h : exec (decode ir) s = .refused r) :
    r = .inu16BadInput ∧ bits 7 0 ir = 0x26 ∧ s.cfg.inu16BadInputPolicy = .refuse ∨
      r = .unknownTrapVector (BitVec.ofNat 8 (bits 7 0 ir)) ∧ (bits 7 0 ir < 0x20 ∨ 0x27 < bits 7 0 ir) ∧
        s.cfg.unknownTrapPolicy = .refuse := by
  obtain ⟨hv, hd⟩ | ⟨hv, hd⟩ | ⟨hv, hd⟩ | ⟨hv, hd⟩ | ⟨hv, hd⟩ | ⟨hv, hd⟩ | ⟨hv, hd⟩ | ⟨hv, hd⟩ | ⟨hv, hd⟩ :=
    decode_trap_cases hop <;> rw [hd] at h
  · exact absurd h (getc_not_refused s r)
  · cases h
  · exact absurd h (putStringFrom_not_refused _ _ s r)
  · exact absurd h (in_not_refused s r)
  · exact absurd h (putStringFrom_not_refused _ _ s r)
  · cases h
  · obtain ⟨hr, hp⟩ := inu16_refused h
    exact .inl ⟨hr, hv, hp⟩
  · cases h
  · rw [exec_unknown_trap hv] at h
    obtain ⟨hr, hp⟩ := unknown_trap_refused h
    rw [vector8_eq_field]
    exact .inr ⟨hr, hv, hp⟩

/-- Settles O55: every other opcode completes, and the routine that the vector selects says why a TRAP stops, with the
fetch's signal already sent. -/
theorem stepStopsOnlyInTrap : Obligations.StepStopsOnlyInTrap := by
  refine fun s => ⟨step_completes, fun f hf => ?_, fun r hr => ?_⟩
  · obtain ⟨hrun, hop⟩ := trap_of_stop (s := s) fun t ht => by rw [ht] at hf; cases hf
    rw [step_running hrun] at hf
    exact ⟨hrun, hop, trap_fault (s := afterFetch s) hop hf⟩
  · obtain ⟨hrun, hop⟩ := trap_of_stop (s := s) fun t ht => by rw [ht] at hr; cases hr
    rw [step_running hrun] at hr
    exact ⟨hrun, hop, trap_refused (s := afterFetch s) hop hr⟩

/-! The unread input (R25, R37). -/

/-- The result with other unread input in its next state. -/
def withInput (l : ConsoleInput) : Result → Result
  | .next t => .next (t.setInput l)
  | .fault f => .fault f
  | .refused r => .refused r

theorem putStringFrom_setInput (chars : Word → List Byte) (a : Word) (s : State) (l : ConsoleInput) :
    putStringFrom chars a (s.setInput l) = withInput l (putStringFrom chars a s) := by
  unfold putStringFrom
  rw [putString_setInput]
  obtain ⟨done, t⟩ := putString chars 65536 a s
  cases done <;> rfl

theorem exec_setInput {i : Instr} (s : State) (l : ConsoleInput) (hw : i.wellFormed = true) (hgetc : i ≠ .trapGetc)
    (hin : i ≠ .trapIn) (hinu16 : i ≠ .trapInu16) : exec i (s.setInput l) = withInput l (exec i s) := by
  cases i
  case trapGetc | trapIn | trapInu16 => contradiction
  case trapPuts | trapPutsp => exact putStringFrom_setInput _ _ s l
  case br nzp offset9 =>
    by_cases h : nzp &&& s.cond = 0
    · rw [exec_br_not_taken (s := s.setInput l) offset9 h, exec_br_not_taken offset9 h]
      rfl
    · rw [exec_br_taken (s := s.setInput l) offset9 h, exec_br_taken offset9 h]
      rfl
  case trap v =>
    have hv := vector_of_wellFormed hw
    have hunknown (u : State) : exec (.trap v) u = execTrapUnknown v u := execTrap_of_no_routine u hv
    rw [hunknown, hunknown, execTrapUnknown, execTrapUnknown, State.setInput_cfg]
    split <;> rfl
  all_goals rfl

/-- Settles O56: an instruction that is none of the three commutes with a change of the unread input. -/
theorem inputIsSeenByInputTrapsOnly : Obligations.InputIsSeenByInputTrapsOnly := by
  intro i s l hw hgetc hin hinu16
  rw [exec_setInput s l hw hgetc hin hinu16]
  cases exec i s <;> rfl

end Sys2Proof
end
